-- ==== Sys2Proof/Word.lean ====
section
/-! DEFINITION. The words of the filter engine, by width (R5, R38): command and response words, sample words,
coefficient words, the overrun counter. -/

namespace Sys2Proof

/-- A command word or a response word: `CMD_W = 32` bits (R5, R70, R71). -/
abbrev Word := BitVec 32

/-- A sample word: `DATA_W = 16` bits, read as signed Q2.14 (R5, R10, R38). -/
abbrev Sample := BitVec 16

/-- A coefficient word: `COEF_W = 18` bits, read as signed Q4.14 (R5, R10, R32). -/
abbrev CoefWord := BitVec 18

/-- The overrun counter's word: `OVR_W = 16` bits, read unsigned (R5, R26, R38). -/
abbrev Counter := BitVec 16

end Sys2Proof
end

