-- ==== Sys2Proof/Syntax.lean ====
section
/-! DEFINITION. The commands of the engine: one constructor for each row of spec/opcode_table.json (R72, R79). -/

namespace Sys2Proof

/-- The seven commands, with their operands as the integers R79 decodes them to.
`proc x` carries `x = sext_16(cmd[15:0])` (R73); `procraw raw` carries `raw = zext_12(cmd[11:0])` (R74). -/
inductive Instr
  | nop
  | status
  | ack
  | proc (x : Int)
  | procraw (raw : Nat)
  | clrst
  | info
deriving DecidableEq, Repr

end Sys2Proof
end

