-- ==== Sys2Proof/WellFormed.lean ====
section
/-! DEFINITION. Which commands the encoding can carry: the operand ranges of R73 and R74. -/

namespace Sys2Proof

/-- A PROC operand is an integer in `[-32768, 32767]` (R73). -/
def procOperandOk (x : Int) : Bool := decide (-32768 ≤ x) && decide (x ≤ 32767)

/-- A PROCRAW operand is an integer in `[0, 4095]` (R74). -/
def procrawOperandOk (raw : Nat) : Bool := decide (raw ≤ 4095)

/-- A command is well formed when its operand is in the range its field can hold; an immediate out of its range is
an error and is not truncated (R80). -/
def Instr.wellFormed : Instr → Bool
  | .nop => true
  | .status => true
  | .ack => true
  | .proc x => procOperandOk x
  | .procraw raw => procrawOperandOk raw
  | .clrst => true
  | .info => true

end Sys2Proof
end

