-- ==== Sys2Proof/Decode.lean ====
section
/-! DEFINITION. Decoding and encoding of command words, from the match and mask table of R72. The decoder is total
over all 2^32 words (R79): a word that no row matches is rejected with the case of R201 it falls under. -/

namespace Sys2Proof

/-- The three cases of R201 that make a word illegal. The engine does not record which one it was (R201); the name
is the decoder's own report (log 13). -/
inductive IllegalCause
  /-- `OPC` is `0x7` to `0xF` (R77). -/
  | reservedOpcode
  /-- `RSV`, `cmd[27:16]`, is not zero (R76). -/
  | reservedField
  /-- `DATA` is not zero where the command takes none, or `cmd[15:12]` is not zero on PROCRAW (R74, R75, R76). -/
  | dataField
deriving DecidableEq, Repr

/-- The result of decoding one word (R79). -/
inductive Decoded
  | instr (i : Instr)
  | illegal (cause : IllegalCause)
deriving DecidableEq, Repr

/-- The mnemonics of R72. -/
inductive Mnemonic
  | NOP | STATUS | ACK | PROC | PROCRAW | CLRST | INFO
deriving DecidableEq, Repr

/-- One row of R72's table of complete words. -/
structure OpcodeRow where
  mnemonic : Mnemonic
  pattern : Word
  mask : Word
deriving DecidableEq, Repr

/-- R72's table of complete words (its `match` column is `pattern` here). -/
def opcodeRows : List OpcodeRow :=
  [ ⟨.NOP,     0x00000000#32, 0xFFFFFFFF#32⟩,
    ⟨.STATUS,  0x10000000#32, 0xFFFFFFFF#32⟩,
    ⟨.ACK,     0x20000000#32, 0xFFFFFFFF#32⟩,
    ⟨.PROC,    0x30000000#32, 0xFFFF0000#32⟩,
    ⟨.PROCRAW, 0x40000000#32, 0xFFFFF000#32⟩,
    ⟨.CLRST,   0x50000000#32, 0xFFFFFFFF#32⟩,
    ⟨.INFO,    0x60000000#32, 0xFFFFFFFF#32⟩ ]

/-- "A word `w` encodes mnemonic `m` exactly when `(w & mask_m) = match_m`" (R72). -/
def OpcodeRow.encodes (r : OpcodeRow) (w : Word) : Bool := w &&& r.mask == r.pattern

/-- The field `cmd[31:28]` (R70). -/
def opcField (w : Word) : BitVec 4 := w.extractLsb' 28 4

/-- The field `cmd[27:16]` (R70). -/
def rsvField (w : Word) : BitVec 12 := w.extractLsb' 16 12

/-- The field `cmd[15:0]` (R70). -/
def dataField (w : Word) : BitVec 16 := w.extractLsb' 0 16

/-- The field `cmd[11:0]` (R74). -/
def rawField (w : Word) : BitVec 12 := w.extractLsb' 0 12

/-- Operand assembly: `sext_16(cmd[15:0])` for PROC (R73), `zext_12(cmd[11:0])` for PROCRAW (R74), none for the
others (R75). -/
def assemble (m : Mnemonic) (w : Word) : Instr :=
  match m with
  | .NOP => .nop
  | .STATUS => .status
  | .ACK => .ack
  | .PROC => .proc (dataField w).toInt
  | .PROCRAW => .procraw (rawField w).toNat
  | .CLRST => .clrst
  | .INFO => .info

/-- Which of R201's cases an illegal word falls under; where several hold, the first of the rule's list (log 13). -/
def illegalCause (w : Word) : IllegalCause :=
  if 7 ≤ (opcField w).toNat then .reservedOpcode
  else if rsvField w ≠ 0 then .reservedField
  else .dataField

/-- What the row found for a word decodes it to; with no row the word is illegal (R72, R76). -/
def decodedBy (w : Word) : Option OpcodeRow → Decoded
  | some r => .instr (assemble r.mnemonic w)
  | none => .illegal (illegalCause w)

/-- The decoder: the row that matches the word gives the command; a word that no row matches is illegal (R72, R79). -/
def decode (w : Word) : Decoded := decodedBy w (opcodeRows.find? fun r => r.encodes w)

/-- The word of a command (R72, R80): PROC is `0x3000_0000 OR bits_16(x)` (R127), PROCRAW is
`0x4000_0000 OR raw` (R128). -/
def encode : Instr → Word
  | .nop => 0x00000000#32
  | .status => 0x10000000#32
  | .ack => 0x20000000#32
  | .proc x => 0x30000000#32 ||| (BitVec.ofInt 16 x).setWidth 32
  | .procraw raw => 0x40000000#32 ||| BitVec.ofNat 32 raw
  | .clrst => 0x50000000#32
  | .info => 0x60000000#32

/-- The command of an opcode-table word. A command is exactly one 32-bit word (R70, R53), so a word of more than 32
bits is no command; bits above `nbits` are zero. -/
def decodeTableWord (nbits w : Nat) : Option Instr :=
  if 32 < nbits then none
  else
    match decode (BitVec.ofNat 32 (w % 2 ^ nbits)) with
    | .instr i => some i
    | .illegal _ => none

end Sys2Proof
end

