-- ==== Sys2Proof/Config.lean ====
section
/-! DEFINITION. What one build of the engine fixes (R2, R5): the structure, its length and its coefficients; and the
model's free values, constants without a body of which nothing can be proved. -/

namespace Sys2Proof

/-- `STRUCT` (R2, R5): the filter structure, fixed when the engine is built. -/
inductive Struct
  /-- FIR by direct convolution. -/
  | FIR
  /-- Direct-form IIR. -/
  | IIR_DIRECT
  /-- IIR biquad cascade. -/
  | IIR_CASCADE
deriving DecidableEq, Repr

/-- The build parameters of R5. The length parameters of the structures the build does not have are unused (R6). -/
structure Build where
  STRUCT : Struct
  NTAPS : Nat
  NORD : Nat
  NSEC : Nat
  COEF : List CoefWord
deriving DecidableEq, Repr

/-- FREE VALUE (log 10). Whether a tick edge that came closer than `TICK_MIN` after the one before it was merged with it
(R64, U15: "any value"). The argument is the model's count of choices made so far. -/
opaque Config.mergesCloseEdge : Nat → Bool

/-- FREE VALUE (log 9). A one-bit field of `S` after power-up and before the first reset (R222: "unspecified"). The
arguments are the model's count of choices and which field it is. -/
opaque Config.powerUpFlag : Nat → Nat → Bool

/-- FREE VALUE (log 9). A 16-bit word of `S` after power-up and before the first reset (R222: "unspecified"). The
arguments are the model's count of choices and which word it is. -/
opaque Config.powerUpWord : Nat → Nat → BitVec 16

end Sys2Proof
end

