-- ==== Sys2Proof/Machine/Build.lean ====
section
/-! DEFINITION. What follows from a build's parameters: its legal ranges (R5, R6), its coefficient layout (R32) and
its INFO word (R28). -/

namespace Sys2Proof

/-- The value of the parameter `STRUCT` (R5). -/
def Struct.code : Struct → Nat
  | .FIR => 0
  | .IIR_DIRECT => 1
  | .IIR_CASCADE => 2

/-- `LEN`: the length parameter of the build's own structure (R28). -/
def Build.LEN (b : Build) : Nat :=
  match b.STRUCT with
  | .FIR => b.NTAPS
  | .IIR_DIRECT => b.NORD
  | .IIR_CASCADE => b.NSEC

/-- The largest legal length of a structure (R5, D13). -/
def Struct.maxLen : Struct → Nat
  | .FIR => 64
  | .IIR_DIRECT => 8
  | .IIR_CASCADE => 8

/-- `NCOEF` (R5, R32). -/
def Build.NCOEF (b : Build) : Nat :=
  match b.STRUCT with
  | .FIR => b.NTAPS
  | .IIR_DIRECT => 2 * b.NORD + 1
  | .IIR_CASCADE => 5 * b.NSEC

/-- R6, conditions (2) and (3). Conditions (1) and (4) hold of every `Build`, by the types of `STRUCT` and `COEF`;
`Build.ofParams` checks them on plain numbers. -/
def Build.wellFormed (b : Build) : Bool :=
  decide (1 ≤ b.LEN) && decide (b.LEN ≤ b.STRUCT.maxLen) && decide (b.COEF.length = b.NCOEF)

/-- The structure a value of `STRUCT` selects; every value but 0, 1 and 2 is refused (R6 condition (1)). -/
def Struct.ofCode : Nat → Option Struct
  | 0 => some .FIR
  | 1 => some .IIR_DIRECT
  | 2 => some .IIR_CASCADE
  | _ => none

/-- R6 condition (4), of one coefficient. -/
def coefInRange (c : Int) : Bool := decide (-131072 ≤ c) && decide (c ≤ 131071)

/-- A build from the plain numbers of R5's table: all four conditions of R6 are checked, and any other build is
refused. -/
def Build.ofParams (STRUCT NTAPS NORD NSEC : Nat) (COEF : List Int) : Option Build :=
  match Struct.ofCode STRUCT with
  | none => none
  | some k =>
    let b : Build := ⟨k, NTAPS, NORD, NSEC, COEF.map (BitVec.ofInt 18)⟩
    if b.wellFormed && COEF.all coefInRange then some b else none

/-- `C[i] = sext_18(COEF[i])`, the i-th coefficient as an integer (R11, R120). -/
def Build.C (b : Build) (i : Nat) : Int := (b.COEF.getD i 0).toInt

/-- `B[i] = C[i]` for `i = 0..NORD`, the feed-forward coefficients of the direct form (R32, R160). -/
def Build.B (b : Build) (i : Nat) : Int := b.C i

/-- `A[i] = C[NORD+i]` for `i = 1..NORD`, the feedback coefficients of the direct form (R32, R160). -/
def Build.A (b : Build) (i : Nat) : Int := b.C (b.NORD + i)

/-- `b0_s = C[5s]` of cascade section `s` (R32). -/
def Build.b0 (b : Build) (s : Nat) : Int := b.C (5 * s)

/-- `b1_s = C[5s+1]` of cascade section `s` (R32). -/
def Build.b1 (b : Build) (s : Nat) : Int := b.C (5 * s + 1)

/-- `b2_s = C[5s+2]` of cascade section `s` (R32). -/
def Build.b2 (b : Build) (s : Nat) : Int := b.C (5 * s + 2)

/-- `a1_s = C[5s+3]` of cascade section `s` (R32). -/
def Build.a1 (b : Build) (s : Nat) : Int := b.C (5 * s + 3)

/-- `a2_s = C[5s+4]` of cascade section `s` (R32). -/
def Build.a2 (b : Build) (s : Nat) : Int := b.C (5 * s + 4)

/-- The command-set version of R1, in the INFO word (R28). -/
def commandSetVersion : BitVec 4 := 1

/-- `INFO_WORD = {16'b0, 4'd1, bits_8(LEN), bits_4(STRUCT)}` (R28). -/
def Build.INFO_WORD (b : Build) : Word :=
  0#16 ++ commandSetVersion ++ BitVec.ofNat 8 b.LEN ++ BitVec.ofNat 4 b.STRUCT.code

/-- DESIGN CHOICE (log 2). The build `State.reset` carries: that of program P2 of 95_test_vectors.md (FIR, 11 taps,
`COEF[5] = 0x04000`, all other taps 0), the one build the spec takes from the source's own 11-tap example (S5). -/
def referenceBuild : Build :=
  ⟨.FIR, 11, 0, 0, List.replicate 5 0 ++ [0x04000#18] ++ List.replicate 5 0⟩

end Sys2Proof
end

