-- ==== Sys2Proof/Machine/Engine.lean ====
section
/-! DEFINITION. The engine state `S` of R20, its values after reset (R36) and its contents before the first reset
(R222). -/

namespace Sys2Proof.Machine

/-- The four state words of one cascade section (R31). -/
structure SectionState where
  SX1 : Sample
  SX2 : Sample
  SY1 : Sample
  SY2 : Sample
deriving DecidableEq, Repr

/-- The filter state (R29, R30, R31). `H[k]` is entry `k` of `H`; `XH[i]` and `YH[i]` are entry `i-1` of `XH` and `YH`;
section `s` is entry `s` of `SEC`. The fields of the structures a build does not have are empty (log 19). -/
structure FilterState where
  H : List Sample
  XH : List Sample
  YH : List Sample
  SEC : List SectionState
deriving DecidableEq, Repr

/-- The engine state `S` (R20): "the record below, and nothing else". -/
structure Engine where
  READY : Bool
  OVR_CNT : Counter
  ERR : Bool
  SAT : Bool
  filter : FilterState
deriving DecidableEq, Repr

/-- A filter state of the shape of the build's structure: `words k` is its k-th word, in the order of R20's table.
Only the fields of the build's own structure exist (10_state.md section 5). -/
def FilterState.ofWords (b : Build) (words : Nat → Sample) : FilterState :=
  match b.STRUCT with
  | .FIR => ⟨(List.range b.NTAPS).map words, [], [], []⟩
  | .IIR_DIRECT =>
    ⟨[], (List.range b.NORD).map words, (List.range b.NORD).map fun i => words (b.NORD + i), []⟩
  | .IIR_CASCADE =>
    ⟨[], [], [], (List.range b.NSEC).map fun s =>
      ⟨words (4 * s), words (4 * s + 1), words (4 * s + 2), words (4 * s + 3)⟩⟩

/-- The filter state after reset: every word `0x0000` (R36). -/
def FilterState.zero (b : Build) : FilterState := FilterState.ofWords b fun _ => 0

/-- The values of R36, which leaving reset gives every field of `S` (R220). -/
def Engine.afterReset (b : Build) : Engine :=
  { READY := false, OVR_CNT := 0, ERR := false, SAT := false, filter := FilterState.zero b }

/-- `S` after power-up and before the first reset: unspecified (R222), so every bit is a free value (log 9). `n` is
the model's count of choices. -/
def Engine.atPowerUp (b : Build) (n : Nat) : Engine :=
  { READY := Config.powerUpFlag n 0
    OVR_CNT := Config.powerUpWord n 0
    ERR := Config.powerUpFlag n 1
    SAT := Config.powerUpFlag n 2
    filter := FilterState.ofWords b fun k => Config.powerUpWord n (k + 1) }

end Sys2Proof.Machine
end

