-- ==== Sys2Proof/Machine/Operands.lean ====
section
/-! DEFINITION. Reading words as integers and writing integers as words (R9), the exact sums of R120, and the
normalization of raw codes (R124). -/

namespace Sys2Proof.Machine

/-- `bits_N(i)`: the N-bit two's complement pattern of `i`, that is `i mod 2^N` (R9). -/
def bits (n : Nat) (i : Int) : BitVec n := BitVec.ofInt n i

/-- `sext_16` of the k-th word of a history (R9, R10; log 16). -/
def sampleAt (l : List Sample) (k : Nat) : Int := (l.getD k 0).toInt

/-- `clamp(v, lo, hi) = min(max(v, lo), hi)` (R9). -/
def clamp (v lo hi : Int) : Int := min (max v lo) hi

/-- The exact sum of `f 0, …, f (n-1)` (R120: "computed as an exact mathematical integer, in any order"). -/
def sumTo : Nat → (Nat → Int) → Int
  | 0, _ => 0
  | n + 1, f => sumTo n f + f n

/-- The shift of R140 and R160: each position takes the next-newer value, the oldest is discarded, `w` enters at the
newest position. A history keeps its length. -/
def shiftIn (w : Sample) (l : List Sample) : List Sample := (w :: l).dropLast

/-- `NORM(raw) = (raw - 2048) * 4` (R124). -/
def NORM (raw : Nat) : Int := ((raw : Int) - 2048) * 4

end Sys2Proof.Machine
end

