-- ==== Sys2Proof/Machine/Flags.lean ====
section
/-! DEFINITION. The flags: the STATUS word (R27), rounding and saturation with the saturation report that sets `SAT`
(R121, R122, R123, R125), and the overrun count of a TICK (R100). -/

namespace Sys2Proof.Machine

/-- `STATUS_WORD(S) = {S.OVR_CNT[15:0], 13'b0, S.SAT, S.ERR, S.READY}` (R27). -/
def STATUS_WORD (S : Engine) : Word :=
  S.OVR_CNT ++ 0#13 ++ BitVec.ofBool S.SAT ++ BitVec.ofBool S.ERR ++ BitVec.ofBool S.READY

/-- `RND14(a) = floor((a + 2^13) / 2^14)` (R121). Division of `Int` by a positive number is floor division. -/
def RND14 (a : Int) : Int := (a + 2 ^ 13) / 2 ^ 14

/-- `SAT16(v) = clamp(v, -32768, 32767)` (R122). -/
def SAT16 (v : Int) : Int := clamp v (-32768) 32767

/-- "The value `v` saturates when `v < -32768` or `v > 32767`" (R122; log 22). -/
def saturates (v : Int) : Bool := decide (v < -32768) || decide (32767 < v)

/-- A result together with whether producing it saturated or clamped. -/
structure Quantised where
  value : Int
  saturated : Bool
deriving DecidableEq, Repr

/-- `QUANT(a)` (R123): round, report saturation, saturate. -/
def QUANT (a : Int) : Quantised := ⟨SAT16 (RND14 a), saturates (RND14 a)⟩

/-- `DENORM(y)` (R125): round `y/4` to the nearest, recentre, report and apply the clamp to `[0, 4095]`. -/
def DENORM (y : Int) : Quantised :=
  let r := (y + 2) / 4 + 2048
  ⟨clamp r 0 4095, decide (r < 0) || decide (4095 < r)⟩

/-- The sticky `SAT` flag after a command that reports `saturated` (R25, R202): set, never cleared. -/
def stickySAT (S : Engine) (saturated : Bool) : Engine := { S with SAT := S.SAT || saturated }

/-- `min(OVR_CNT + 1, 0xFFFF)` (R100): the counter saturates and never wraps (R26, R107). -/
def overrunCount (c : Counter) : Counter := BitVec.ofNat 16 (min (c.toNat + 1) 0xFFFF)

/-- The TICK event on the engine state (R100). -/
def TICK (S : Engine) : Engine :=
  if S.READY then { S with OVR_CNT := overrunCount S.OVR_CNT } else { S with READY := true }

end Sys2Proof.Machine
end

