-- ==== Sys2Proof/Machine/Fir.lean ====
section
/-! DEFINITION. The FIR structure, `STRUCT = 0` (42_fir.md), and what every filter step returns (R126). -/

namespace Sys2Proof.Machine

/-- What one `FILTER_STEP` gives (R126): the new filter state, the output sample, and whether a `QUANT` saturated. -/
structure FilterResult where
  filter : FilterState
  y : Int
  saturated : Bool
deriving DecidableEq, Repr

/-- The sum over `k = 0..NTAPS-1` of `C[k] * sext_16(H[k])` (R140). -/
def firSum (b : Build) (H : List Sample) : Int := sumTo b.NTAPS fun k => b.C k * sampleAt H k

/-- FIR_STEP (R140): shift, insert, sum, quantise. -/
def FIR_STEP (b : Build) (f : FilterState) (x : Int) : FilterResult :=
  let H := shiftIn (bits 16 x) f.H
  let q := QUANT (firSum b H)
  ⟨{ f with H := H }, q.value, q.saturated⟩

end Sys2Proof.Machine
end

