-- ==== Sys2Proof/Machine/IirCascade.lean ====
section
/-! DEFINITION. The biquad cascade structure, `STRUCT = 2` (44_iir_cascade.md). -/

namespace Sys2Proof.Machine

/-- The sum of section `s` with input `v`, on its state before the update (R180). -/
def sectionSum (b : Build) (s : Nat) (c : SectionState) (v : Int) : Int :=
  b.b0 s * v + b.b1 s * c.SX1.toInt + b.b2 s * c.SX2.toInt - b.a1 s * c.SY1.toInt - b.a2 s * c.SY2.toInt

/-- The update of one section after its output `w` (R180). -/
def sectionUpdate (c : SectionState) (v w : Int) : SectionState :=
  { SX1 := bits 16 v, SX2 := c.SX1, SY1 := bits 16 w, SY2 := c.SY1 }

/-- What running sections gives: their new states, the last output, and whether any `QUANT` saturated. -/
structure CascadeResult where
  sections : List SectionState
  y : Int
  saturated : Bool
deriving DecidableEq, Repr

/-- The loop of CAS_STEP from section `s` on with input `v` (R180): index order (R183), each section's quantised output
the next one's input (R182). -/
def runSections (b : Build) (s : Nat) (v : Int) : List SectionState → CascadeResult
  | [] => ⟨[], v, false⟩
  | c :: cs =>
    let q := QUANT (sectionSum b s c v)
    let r := runSections b (s + 1) q.value cs
    ⟨sectionUpdate c v q.value :: r.sections, r.y, q.saturated || r.saturated⟩

/-- CAS_STEP (R180). -/
def CAS_STEP (b : Build) (f : FilterState) (x : Int) : FilterResult :=
  let r := runSections b 0 x f.SEC
  ⟨{ f with SEC := r.sections }, r.y, r.saturated⟩

end Sys2Proof.Machine
end

