-- ==== Sys2Proof/Machine/IirDirect.lean ====
section
/-! DEFINITION. The direct-form IIR structure, `STRUCT = 1` (43_iir_direct.md). -/

namespace Sys2Proof.Machine

/-- `B[0]*x + Σ B[i]*XH[i] - Σ A[i]*YH[i]` over `i = 1..NORD`, on the histories before the update (R160, R162). The
index of each sum is `j = i-1`. -/
def dfSum (b : Build) (f : FilterState) (x : Int) : Int :=
  b.B 0 * x + sumTo b.NORD (fun j => b.B (j + 1) * sampleAt f.XH j)
    - sumTo b.NORD (fun j => b.A (j + 1) * sampleAt f.YH j)

/-- DF_STEP (R160): sum and quantise first, then shift both histories; `YH[1]` takes the returned sample (R165). -/
def DF_STEP (b : Build) (f : FilterState) (x : Int) : FilterResult :=
  let q := QUANT (dfSum b f x)
  ⟨{ f with XH := shiftIn (bits 16 x) f.XH, YH := shiftIn (bits 16 q.value) f.YH }, q.value, q.saturated⟩

end Sys2Proof.Machine
end

