-- ==== Sys2Proof/Machine/State.lean ====
section
/-! DEFINITION. The machine's state: the engine state `S` (R20) with the build it belongs to, the reset phase, the
response port, and the inputs of the agents around the engine (R7) as plain data. -/

namespace Sys2Proof.Machine

/-- Where the engine stands with respect to reset (R220, R221, R222). -/
inductive Phase
  /-- Since power-up no reset has been asserted: the state of `S` is unspecified (R222). -/
  | beforeReset
  /-- `rst_n` is low (R221). -/
  | inReset
  /-- Reset has been released; commands execute and ticks take effect. -/
  | running
deriving DecidableEq, Repr

/-- The atomic events of R56, and the port and power events around them. -/
inductive Event
  /-- The host offers its next command word; if `cmd_ready` is 1 the engine accepts and executes it (R51, R57). -/
  | issue
  /-- The host accepts a response (`rsp_ready = 1`, R51). -/
  | take
  /-- One TICK event (R100). -/
  | tick
  /-- `issue` and a TICK event in the same clock cycle: the TICK is ordered after the command (R58). -/
  | issueTick
  /-- A rising edge of `tick_i` closer than R101 allows after the edge before it: it may or may not become a TICK of
  its own (R64). -/
  | closeEdge
  /-- `rst_n` goes low (R220). -/
  | resetAssert
  /-- `rst_n` goes high and the engine leaves reset on the next clock edge (R220). -/
  | resetRelease
  /-- Power is lost and comes back (R211, R222). -/
  | powerCycle
deriving DecidableEq, Repr

/-- The machine. `S` is the spec's engine state; `build` its parameters (R5, R33: no event changes them; log 1). -/
structure State where
  /-- The build parameters, a parameter of every step (R33). -/
  build : Build
  /-- Before reset, in reset, or running. -/
  phase : Phase
  /-- The engine state of R20. -/
  S : Engine
  /-- The response port (R51, R57): `some w` when `rsp_valid = 1` and `rsp_data = w`. -/
  rsp : Option Word
  /-- The host's command words not yet accepted, in the order it issues them; the first is the one
  that its next turn puts on `cmd_data` (R22, R57; log 25). -/
  commands : List Word
  /-- The events still to come, first next (R56; log 3). -/
  schedule : List Event
  /-- The model's own: responses delivered to the host so far, oldest first (R230's observation; log 18). -/
  responses : List Word
  /-- The model's own: how many free values have been used (log 10). -/
  choices : Nat
deriving DecidableEq, Repr

/-- The reasons the machine stops with a fault. There are none: "No command traps, and nothing leaves the engine stuck
or in a faulted state" (R200). The one exception, IllegalCommand, is a next state (R201). Safe: no behaviour of the
engine is turned into a stop. -/
inductive Fault
deriving DecidableEq, Repr

/-- The reasons a step has no meaning. -/
inductive Refusal
  /-- An instruction the model gives no meaning; no arm of `exec` uses it. Safe: the machine stops where the hardware
  would go on. -/
  | notModelled (mnemonic : String)
  /-- Raised by `step`: the build violates R6 ("a model refuses any other build"). Safe: no such engine exists. -/
  | illFormedBuild
  /-- Raised by `applyEvent` for a command, a TICK or a response transfer between power-up and the first reset (R222: "A
  model refuses any command or TICK before the first reset"). Safe: nothing can be proved about what such an event does. -/
  | beforeFirstReset
deriving DecidableEq, Repr

/-- The machine right after reset, for a build: `S` as R36 says, running, no response pending (R221), and no input yet. -/
def State.resetOf (b : Build) : State :=
  { build := b, phase := .running, S := Engine.afterReset b, rsp := none
    commands := [], schedule := [], responses := [], choices := 0 }

/-- The machine right after reset, with the build of log 2. -/
def State.reset : State := State.resetOf referenceBuild

end Sys2Proof.Machine
end

