-- ==== Sys2Proof/Machine/Ops.lean ====
section
/-! DEFINITION. The operations the meanings and the events share: the response, the filter step, the one exception,
the ports, the tick, reset and power. -/

namespace Sys2Proof.Machine

/-- `rsp <- w` (R11): the command's response goes onto the response port (R51, R71). -/
def State.respond (s : State) (w : Word) : State := { s with rsp := some w }

/-- Replace the engine state. -/
def State.withS (s : State) (S : Engine) : State := { s with S := S }

/-- `FILTER_STEP(x)` (R126): the structure of the build chooses the step. -/
def FILTER_STEP (b : Build) (f : FilterState) (x : Int) : FilterResult :=
  match b.STRUCT with
  | .FIR => FIR_STEP b f x
  | .IIR_DIRECT => DF_STEP b f x
  | .IIR_CASCADE => CAS_STEP b f x

/-- The engine state after a filter step: its filter state, and `SAT` set if the command reports saturation
(R63, R129: PROC and PROCRAW write nothing else). -/
def commitFilter (S : Engine) (f : FilterState) (saturated : Bool) : Engine :=
  stickySAT { S with filter := f } saturated

/-- TAKING THE EXCEPTION `IllegalCommand(cmd)`, cause code 1 (R201): `ERR <- 1`, `rsp <- 0`, nothing else. The
offending word is not captured, no state is saved, there is no mode, mask or vector (R206), and no return (R207). -/
def raiseIllegalCommand (_cmd : Word) (s : State) : State :=
  (s.withS { s.S with ERR := true }).respond 0#32

/-- `cmd_ready` (R51): 1 while running with no response waiting to be delivered (R57, R221, R228). -/
def State.cmdReady (s : State) : Bool := s.phase == .running && s.rsp.isNone

/-- The word that the host drives on `cmd_data`, with `cmd_valid = 1`, at its next turn (R51). `some` is not `cmd_valid = 1`.
MODEL'S CHOICE (log 25): `cmd_valid` is 1 only in the cycles of the host's turns, the events `issue` and `issueTick`. -/
def State.cmdOffered (s : State) : Option Word := s.commands.head?

/-- `ready_o` (R51, R108): "equals `S.READY` at all times". -/
def State.readyO (s : State) : Bool := s.S.READY

/-- The engine's output ports (R51). -/
structure OutputPorts where
  cmd_ready : Bool
  rsp_valid : Bool
  /-- `none` while `rsp_valid = 0`: the spec gives `rsp_data` no value then. -/
  rsp_data : Option Word
  ready_o : Bool
deriving DecidableEq, Repr

/-- The outputs; `none` before the first reset, where they are unspecified (R222). -/
def State.outputs (s : State) : Option OutputPorts :=
  match s.phase with
  | .beforeReset => none
  | .inReset | .running => some ⟨s.cmdReady, s.rsp.isSome, s.rsp, s.readyO⟩

/-- The delivery of a response (R51, R57): the waiting response goes to the host and `cmd_ready` rises. With
`rsp_valid = 0` no transfer takes place (log 6). -/
def State.deliver (s : State) : State :=
  match s.rsp with
  | some w => { s with rsp := none, responses := s.responses ++ [w] }
  | none => s

/-- A TICK event takes effect (R100). -/
def State.tick (s : State) : State := s.withS (TICK s.S)

/-- A tick edge too close to the one before it (R64, U15): merged, with no effect and counted by nothing, or one more
TICK; which of the two is a free value (log 10). -/
def State.closeEdge (s : State) : State :=
  let t : State := { s with choices := s.choices + 1 }
  if Config.mergesCloseEdge s.choices then t else t.tick

/-- Reset is asserted (R220, R221): the values of R36 replace `S`, an unanswered command gets no response, no response
is offered. The build does not change (R33). `S` has these values already while reset is asserted (log 7). -/
def State.enterReset (s : State) : State :=
  { s with phase := .inReset, S := Engine.afterReset s.build, rsp := none }

/-- Reset is released (R220): every field of `S` is at its value in R36. `rst_n` going high takes the engine out of
reset only if it was low (log 8). -/
def State.leaveReset (s : State) : State :=
  match s.phase with
  | .inReset => { s with phase := .running, S := Engine.afterReset s.build, rsp := none }
  | .beforeReset | .running => s

/-- Power is lost and comes back (R211): `S` is lost, and is unspecified until the first reset (R222; log 9).
MODEL'S CHOICE (log 23): power lost while `rst_n` is low also leads before the first reset, and the release of that `rst_n`
then has no effect; `rst_n` must be asserted anew. -/
def State.powerLoss (s : State) : State :=
  { s with
    phase := .beforeReset
    S := Engine.atPowerUp s.build s.choices
    rsp := none
    choices := s.choices + 1 }

end Sys2Proof.Machine
end

