-- ==== Sys2Proof/Machine/Pipeline.lean ====
section
/-! DEFINITION. The filter commands of 41_pipeline.md: PROC and PROCRAW. -/

namespace Sys2Proof.Machine

/-- PROC (R127): one filter step on the operand; the response is the output sample, sign-extended. PROC does not test
`READY` (R227). Log 21. -/
def execProc (x : Int) (s : State) : Host.Outcome State Fault Refusal :=
  let r := FILTER_STEP s.build s.S.filter x
  .next ((s.withS (commitFilter s.S r.filter r.saturated)).respond (bits 32 r.y))

/-- PROCRAW (R128): normalize, filter, denormalize; the response is the raw code, zero-extended. `SAT` is set by a
`QUANT` or by the clamp of `DENORM`. -/
def execProcraw (raw : Nat) (s : State) : Host.Outcome State Fault Refusal :=
  let r := FILTER_STEP s.build s.S.filter (NORM raw)
  let d := DENORM r.y
  .next ((s.withS (commitFilter s.S r.filter (r.saturated || d.saturated))).respond (bits 32 d.value))

end Sys2Proof.Machine
end

