-- ==== Sys2Proof/Machine/Scheduler.lean ====
section
/-! DEFINITION. The control commands of 40_scheduler.md: NOP, STATUS, ACK, CLRST, INFO. -/

namespace Sys2Proof.Machine

/-- NOP (R102): response 0, no state change. -/
def execNop (s : State) : Host.Outcome State Fault Refusal := .next (s.respond 0#32)

/-- STATUS (R103): the STATUS word, nothing cleared (log 12). -/
def execStatus (s : State) : Host.Outcome State Fault Refusal := .next (s.respond (STATUS_WORD s.S))

/-- ACK (R104): the STATUS word before the clear, then `READY <- 0`, in one step (R60). -/
def execAck (s : State) : Host.Outcome State Fault Refusal :=
  .next ((s.withS { s.S with READY := false }).respond (STATUS_WORD s.S))

/-- CLRST (R105): the STATUS word before the clears, then `ERR`, `SAT`, `OVR_CNT` cleared, in one step; not `READY`. -/
def execClrst (s : State) : Host.Outcome State Fault Refusal :=
  .next ((s.withS { s.S with ERR := false, SAT := false, OVR_CNT := 0 }).respond (STATUS_WORD s.S))

/-- INFO (R106): the build's INFO word. -/
def execInfo (s : State) : Host.Outcome State Fault Refusal := .next (s.respond s.build.INFO_WORD)

end Sys2Proof.Machine
end

