-- ==== Sys2Proof/Machine/Dispatch.lean ====
section
/-! DEFINITION. The meaning of each command, one arm each. -/

namespace Sys2Proof.Machine

def exec (i : Instr) (s : State) : Host.Outcome State Fault Refusal :=
  match i with
  | .nop => Sys2Proof.Machine.execNop s
  | .status => Sys2Proof.Machine.execStatus s
  | .ack => Sys2Proof.Machine.execAck s
  | .proc x => Sys2Proof.Machine.execProc x s
  | .procraw raw => Sys2Proof.Machine.execProcraw raw s
  | .clrst => Sys2Proof.Machine.execClrst s
  | .info => Sys2Proof.Machine.execInfo s

end Sys2Proof.Machine
end

