-- ==== Sys2Proof/Machine/Events.lean ====
section
/-! DEFINITION. The events of R56: a command accepted on the port, a TICK, a reset, and the events around them. -/

namespace Sys2Proof.Machine

/-- The engine executes one accepted command word (R12): legality is decided first (R205), a legal word runs its
command, an illegal one executes only R201. -/
def runCommand (w : Word) (s : State) : Host.Outcome State Fault Refusal :=
  match decode w with
  | .instr i => exec i s
  | .illegal _ => .next (raiseIllegalCommand w s)

/-- The host's turn on the command port (R51, R57). With `cmd_valid = 1` and `cmd_ready = 1` the word is accepted and
executed; otherwise no word is accepted, and the host keeps offering the one it has (R228; log 4, log 5). -/
def issueCommand (s : State) : Host.Outcome State Fault Refusal :=
  match s.rsp, s.commands with
  | none, w :: ws => runCommand w { s with commands := ws }
  | _, _ => .next s

/-- The turn of the host and a TICK in one clock cycle: "the TICK is ordered after the command" (R58, R205). -/
def issueThenTick (s : State) : Host.Outcome State Fault Refusal :=
  match issueCommand s with
  | .next t => .next t.tick
  | .fault r => .fault r
  | .refused r => .refused r

/-- Which events can take effect: before the first reset a model has no step for a command, a TICK or a response (R222);
while reset is asserted none of them has an effect (R221, R205). Log 11. -/
def whenRunning (s : State) (act : State → Host.Outcome State Fault Refusal) : Host.Outcome State Fault Refusal :=
  match s.phase with
  | .beforeReset => .refused .beforeFirstReset
  | .inReset => .next s
  | .running => act s

/-- One event of R56 takes effect, reading the state the previous event left. -/
def applyEvent (e : Event) (s : State) : Host.Outcome State Fault Refusal :=
  match e with
  | .issue => whenRunning s issueCommand
  | .take => whenRunning s fun t => .next t.deliver
  | .tick => whenRunning s fun t => .next t.tick
  | .issueTick => whenRunning s issueThenTick
  | .closeEdge => whenRunning s fun t => .next t.closeEdge
  | .resetAssert => .next s.enterReset
  | .resetRelease => .next s.leaveReset
  | .powerCycle => .next s.powerLoss

end Sys2Proof.Machine
end

