-- ==== Sys2Proof/Machine/Step.lean ====
section
/-! DEFINITION. One step of the machine: the next event of the schedule takes effect (R56). -/

namespace Sys2Proof.Machine

/-- One step. A build that violates R6 is refused. With no event left the engine stays as it is: it "takes no step of its
own outside a command, a TICK or a reset" (R7; log 15). -/
def step (s : State) : Host.Outcome State Fault Refusal :=
  if s.build.wellFormed then
    match s.schedule with
    | [] => .next s
    | e :: es => applyEvent e { s with schedule := es }
  else .refused .illFormedBuild

/-- The state whose very next step accepts and executes the word `w`: the engine is running, its response port is free, the
word is the next one on the command port, and the host has the turn (log 14). Bits of `w` from `nbits` up are zero. -/
def State.withFetchWord (s : State) (nbits w : Nat) : State :=
  { s with
    phase := .running
    rsp := none
    commands := BitVec.ofNat 32 (w % 2 ^ nbits) :: s.commands
    schedule := .issue :: s.schedule }

end Sys2Proof.Machine
end

