-- ==== Sys2Proof/Machine/Assembler.lean ====
section
/-! DEFINITION. Host-program syntax (R80), pseudo-instructions (R81), and the run of a host program with TICKs placed in
it (R230): from text to the command words and the event schedule of a run. What R80 leaves open of the text: log 20. -/

namespace Sys2Proof.Machine

/-- One event of a run of a host program (R230): a command of the program, or a TICK placed between commands. -/
inductive RunEvent
  | command (w : Word)
  | tick
deriving DecidableEq, Repr

/-- An immediate of R80: a decimal integer, or a hexadecimal pattern. -/
inductive Imm
  | dec (i : Int)
  | hex (p : Nat)
deriving DecidableEq, Repr

/-- One line of a script: a command, a raw word, a pseudo-instruction, or the directive `@tick` (R80, R81). -/
inductive Line
  | nop
  | status
  | ack
  | proc (imm : Imm)
  | procraw (imm : Imm)
  | clrst
  | info
  | word (w : Nat)
  | tick
  | svc (imm : Imm)
  | svcq (imm : Imm)
  | poll
deriving DecidableEq, Repr

/-- The PROC of an immediate: a decimal integer in `[-32768, 32767]` or a pattern `0x0000`..`0xFFFF`. One out of its
range is an assembly error, not truncated (R80). -/
def procOfImm : Imm → Option Instr
  | .dec i => if procOperandOk i then some (.proc i) else none
  | .hex p => if p ≤ 0xFFFF then some (.proc (BitVec.ofNat 16 p).toInt) else none

/-- The PROCRAW of an immediate: an integer in `[0, 4095]`, decimal or hexadecimal (R80). -/
def procrawOfImm : Imm → Option Instr
  | .dec i => if 0 ≤ i ∧ procrawOperandOk i.toNat = true then some (.procraw i.toNat) else none
  | .hex p => if procrawOperandOk p then some (.procraw p) else none

/-- The event of one command of a program. -/
def eventOf (i : Instr) : RunEvent := .command (encode i)

/-- The events a line stands for; `none` is an assembly error. `svc` is `ack` then `procraw`, `svcq` is `ack` then `proc`,
`poll` is `status` (R81). -/
def Line.events : Line → Option (List RunEvent)
  | .nop => some [eventOf .nop]
  | .status => some [eventOf .status]
  | .ack => some [eventOf .ack]
  | .proc imm => (procOfImm imm).map fun i => [eventOf i]
  | .procraw imm => (procrawOfImm imm).map fun i => [eventOf i]
  | .clrst => some [eventOf .clrst]
  | .info => some [eventOf .info]
  | .word w => if w < 2 ^ 32 then some [.command (BitVec.ofNat 32 w)] else none
  | .tick => some [.tick]
  | .svc imm => (procrawOfImm imm).map fun i => [eventOf .ack, eventOf i]
  | .svcq imm => (procOfImm imm).map fun i => [eventOf .ack, eventOf i]
  | .poll => some [eventOf .status]

/-- The events of a script, in line order. -/
def eventsOfLines : List Line → Option (List RunEvent)
  | [] => some []
  | l :: ls =>
    match l.events, eventsOfLines ls with
    | some es, some rest => some (es ++ rest)
    | _, _ => none

/-- The line without its comment: a `;` starts a comment to the end of the line (R80). -/
def stripComment : List Char → List Char
  | [] => []
  | c :: cs => if c = ';' then [] else c :: stripComment cs

/-- White space separates the words of a line. -/
def isBlank (c : Char) : Bool := c = ' ' || c = '\t' || c = '\r'

/-- The words of a line; `cur` is the word being read, last character first. -/
def wordsOf (cur : List Char) : List Char → List (List Char)
  | [] => if cur.isEmpty then [] else [cur.reverse]
  | c :: cs =>
    if isBlank c then
      if cur.isEmpty then wordsOf [] cs else cur.reverse :: wordsOf [] cs
    else wordsOf (c :: cur) cs

/-- The value of a digit, hexadecimal in either case. -/
def digitValue (c : Char) : Option Nat :=
  if '0' ≤ c ∧ c ≤ '9' then some (c.toNat - '0'.toNat)
  else if 'a' ≤ c ∧ c ≤ 'f' then some (c.toNat - 'a'.toNat + 10)
  else if 'A' ≤ c ∧ c ≤ 'F' then some (c.toNat - 'A'.toNat + 10)
  else none

/-- The number a list of digits writes in a base, after the value read so far; `_` is a separator (R8).
MODEL'S CHOICE (log 20): a doubled or trailing `_` is a separator too, so `0x12_` is `0x12`. -/
def digitsValue (base acc : Nat) : List Char → Option Nat
  | [] => some acc
  | c :: cs =>
    if c = '_' then digitsValue base acc cs
    else
      match digitValue c with
      | some d => if d < base then digitsValue base (acc * base + d) cs else none
      | none => none

/-- A non-empty run of digits that begins with a digit, not with `_` (log 20). -/
def numeral (base : Nat) : List Char → Option Nat
  | [] => none
  | c :: cs => if c = '_' then none else digitsValue base 0 (c :: cs)

/-- An immediate: `0x…`, or decimal with an optional minus sign. -/
def immOf : List Char → Option Imm
  | '0' :: 'x' :: ds => (numeral 16 ds).map .hex
  | '-' :: ds => (numeral 10 ds).map fun n => .dec (-(n : Int))
  | ds => (numeral 10 ds).map fun n => .dec n

/-- The number of a `.word` line. MODEL'S CHOICE (log 20): a negative decimal is an error. -/
def wordOfImm : Imm → Option Nat
  | .hex p => some p
  | .dec i => if 0 ≤ i then some i.toNat else none

/-- The line that the words of one line of text write: the mnemonic in lower case, then its immediate (R80). -/
def lineOfWords : List (List Char) → Option Line
  | [m] =>
    if m = "nop".toList then some .nop
    else if m = "status".toList then some .status
    else if m = "ack".toList then some .ack
    else if m = "clrst".toList then some .clrst
    else if m = "info".toList then some .info
    else if m = "poll".toList then some .poll
    else if m = "@tick".toList then some .tick
    else none
  | [m, a] =>
    match immOf a with
    | none => none
    | some imm =>
      if m = "proc".toList then some (.proc imm)
      else if m = "procraw".toList then some (.procraw imm)
      else if m = "svc".toList then some (.svc imm)
      else if m = "svcq".toList then some (.svcq imm)
      else if m = ".word".toList then (wordOfImm imm).map .word
      else none
  | _ => none

/-- The events one line of text stands for: none for a line that is empty but for its comment, `none` for an assembly
error (R80). -/
def eventsOfText (line : String) : Option (List RunEvent) :=
  match wordsOf [] (stripComment line.toList) with
  | [] => some []
  | ws => (lineOfWords ws).bind Line.events

/-- The events of a script, one line of text each. -/
def eventsOfScript : List String → Option (List RunEvent)
  | [] => some []
  | l :: ls =>
    match eventsOfText l, eventsOfScript ls with
    | some es, some rest => some (es ++ rest)
    | _, _ => none

/-- The command words of a run, in order: its host program (R230). -/
def programOf : List RunEvent → List Word
  | [] => []
  | .command w :: es => w :: programOf es
  | .tick :: es => programOf es

/-- The run that a list of events holds, as R230 ends it: "at the event that executes the last command". TICKs after the last
command are no part of the run.
MODEL'S CHOICE (log 24): R230 does not say where the run of a program with no command ends; here it is empty. -/
def untilLastCommand : List RunEvent → List RunEvent
  | [] => []
  | .command w :: es => .command w :: untilLastCommand es
  | .tick :: es =>
    match untilLastCommand es with
    | [] => []
    | e :: rest => .tick :: e :: rest

/-- `es` is a run of the program (R230): it holds the program's commands in order, TICKs anywhere before the last command,
nothing after it, and no reset (a `RunEvent` is none). -/
abbrev IsRunOf (program : List Word) (es : List RunEvent) : Prop := programOf es = program ∧ untilLastCommand es = es

/-- The schedule of a list of events: each command is issued and its response taken, each TICK takes effect where it stands
(log 5). Taking the last response changes nothing in `S`. -/
def scheduleOf : List RunEvent → List Event
  | [] => []
  | .command _ :: es => .issue :: .take :: scheduleOf es
  | .tick :: es => .tick :: scheduleOf es

/-- The start of a run (R230): the state of R36 for the build, with the events' program and schedule. The run of a list `es`
that goes on after its last command is that of `untilLastCommand es`. -/
def State.startOf (b : Build) (es : List RunEvent) : State :=
  { State.resetOf b with commands := programOf es, schedule := scheduleOf es }

end Sys2Proof.Machine
end

