-- ==== Sys2Proof/Safety.lean ====
section
/-! DEFINITION. The terms in which claims about the engine are stated: legality and decoding as R76 and R79 write them, the
machine's invariant, sequences of commands, runs and their observation (R230), delayed sequences (R141, R161, R181), and
the source's FIR buffer (R143). -/

namespace Sys2Proof.Safety

open Sys2Proof.Machine

/-- `LEGAL(cmd)`, as R76 writes it. -/
def LEGAL (cmd : Word) : Bool :=
  cmd.extractLsb' 16 12 == 0#12 &&
    (((cmd.extractLsb' 28 4 == 0x0#4 || cmd.extractLsb' 28 4 == 0x1#4 || cmd.extractLsb' 28 4 == 0x2#4 ||
        cmd.extractLsb' 28 4 == 0x5#4 || cmd.extractLsb' 28 4 == 0x6#4) && cmd.extractLsb' 0 16 == 0#16) ||
      cmd.extractLsb' 28 4 == 0x3#4 ||
      (cmd.extractLsb' 28 4 == 0x4#4 && cmd.extractLsb' 12 4 == 0#4))

/-- `DECODE(w)`, as R79 writes it; `none` is `Illegal(w)`. -/
def DECODE (w : Word) : Option Instr :=
  if !LEGAL w then none
  else
    match (w.extractLsb' 28 4).toNat with
    | 0x0 => some .nop
    | 0x1 => some .status
    | 0x2 => some .ack
    | 0x3 => some (.proc (w.extractLsb' 0 16).toInt)
    | 0x4 => some (.procraw (w.extractLsb' 0 12).toNat)
    | 0x5 => some .clrst
    | 0x6 => some .info
    | _ => none

/-- The filter state has the words of the build's own structure and no others (10_state.md section 5, R29 to R31). -/
abbrev Fits (b : Build) (f : FilterState) : Prop :=
  f.H.length = (if b.STRUCT = .FIR then b.NTAPS else 0) ∧
  f.XH.length = (if b.STRUCT = .IIR_DIRECT then b.NORD else 0) ∧
  f.YH.length = (if b.STRUCT = .IIR_DIRECT then b.NORD else 0) ∧
  f.SEC.length = (if b.STRUCT = .IIR_CASCADE then b.NSEC else 0)

/-- Every word of the filter state is zero. -/
abbrev AllZero (f : FilterState) : Prop :=
  (∀ w ∈ f.H, w = 0) ∧ (∀ w ∈ f.XH, w = 0) ∧ (∀ w ∈ f.YH, w = 0) ∧ (∀ c ∈ f.SEC, c = ⟨0, 0, 0, 0⟩)

/-- The machine's invariant: the build is well formed (R6); the filter state has exactly the words of its structure; no
response is offered outside running (R221); while reset is asserted every field of `S` has its value of R36 (R220, R221). -/
abbrev Inv (s : State) : Prop :=
  s.build.wellFormed = true ∧ Fits s.build s.S.filter ∧ (s.phase ≠ .running → s.rsp = none) ∧
  (s.phase = .inReset → s.S = Engine.afterReset s.build)

/-- The next step of `s` lets the host's word `w` be accepted: a legal build, running, the response port free, `w` on the
command port, and the turn the host's. `ws` and `es` are the words and events after it. -/
abbrev Offers (s : State) (w : Word) (ws : List Word) (es : List Event) : Prop :=
  s.build.wellFormed = true ∧ s.phase = .running ∧ s.rsp = none ∧ s.commands = w :: ws ∧ s.schedule = .issue :: es

/-- The word that the next step of `s` accepts, if it accepts one (R51, R57, R58). -/
def accepted (s : State) : Option Word :=
  match s.schedule with
  | .issue :: _ | .issueTick :: _ => if s.cmdReady then s.commands.head? else none
  | _ => none

/-- The next event of `s` replaces `S` whole, whatever the phase: reset is asserted, or power is lost. -/
def replacesS (s : State) : Bool :=
  match s.schedule with
  | .resetAssert :: _ | .powerCycle :: _ => true
  | _ => false

/-- The next event of `s` can bring a TICK. -/
def bringsTick (s : State) : Bool :=
  match s.schedule with
  | .tick :: _ | .issueTick :: _ | .closeEdge :: _ => true
  | _ => false

/-- A run of `n` steps, stopping at a refusal: `Host.Core.run` of this machine. -/
def runSteps : Nat → State → Host.Outcome State Fault Refusal
  | 0, s => .next s
  | n + 1, s =>
    match step s with
    | .next t => runSteps n t
    | .fault r => .fault r
    | .refused r => .refused r

/-- Commands executed one after the other, each response taken: the last state and the responses in order, or `none` if
one of them stops. -/
def execAll : List Instr → State → Option (State × List Word)
  | [], s => some (s, [])
  | i :: is, s =>
    match exec i s with
    | .next t =>
      match t.rsp, execAll is t with
      | some w, some (u, ws) => some (u, w :: ws)
      | _, _ => none
    | .fault _ => none
    | .refused _ => none

/-- `x[n-d]`, with `x[m] = 0` for `m < 0` (R141, R161, R181). -/
def delayed (x : Nat → Int) (n d : Nat) : Int := if d ≤ n then x (n - d) else 0

/-- The n-th of a list of inputs. -/
def nth (xs : List Int) (n : Nat) : Int := xs.getD n 0

/-- The n-th response, read as a signed integer (R71: "the output sample sign-extended to 32 bits"). -/
def answer (ws : List Word) (n : Nat) : Int := (ws.getD n 0).toInt

/-- A PROC operand that R73 allows. -/
abbrev InSampleRange (x : Int) : Prop := -32768 ≤ x ∧ x ≤ 32767

/-- What a command word does to the engine state, and its response (R71, R102 to R106, R127, R128, R201), by R79's
decoding. -/
def commandEffect (b : Build) (w : Word) (S : Engine) : Engine × Word :=
  match DECODE w with
  | none => ({ S with ERR := true }, 0)
  | some .nop => (S, 0)
  | some .status => (S, STATUS_WORD S)
  | some .ack => ({ S with READY := false }, STATUS_WORD S)
  | some .clrst => ({ S with ERR := false, SAT := false, OVR_CNT := 0 }, STATUS_WORD S)
  | some .info => (S, b.INFO_WORD)
  | some (.proc x) =>
    let r := FILTER_STEP b S.filter x
    ({ S with filter := r.filter, SAT := S.SAT || r.saturated }, BitVec.ofInt 32 r.y)
  | some (.procraw raw) =>
    let r := FILTER_STEP b S.filter (NORM raw)
    let d := DENORM r.y
    ({ S with filter := r.filter, SAT := S.SAT || r.saturated || d.saturated }, BitVec.ofInt 32 d.value)

/-- A list of events from the engine state `S`: the state after its last event and the responses in order. This is R56's
total order of atomic events, with no ports. -/
def observe (b : Build) : List RunEvent → Engine → Engine × List Word
  | [], S => (S, [])
  | .command w :: es, S =>
    let r := commandEffect b w S
    let o := observe b es r.1
    (o.1, r.2 :: o.2)
  | .tick :: es, S => observe b es (TICK S)

/-- The observation of a run (R230), from the state of R36: the responses in order and the state `S` after the last command,
whatever TICKs come after it; the
state of R36 itself where there is no command (log 24). -/
def observation (b : Build) (es : List RunEvent) : Engine × List Word :=
  observe b (untilLastCommand es) (Engine.afterReset b)

/-- `L` of R107: the TICK events of a run that find `READY = 1`. -/
def overruns (b : Build) : List RunEvent → Engine → Nat
  | [], _ => 0
  | .command w :: es, S => overruns b es (commandEffect b w S).1
  | .tick :: es, S => (if S.READY then 1 else 0) + overruns b es (TICK S)

/-- A response is waiting on the port: 1, otherwise 0. -/
def waiting (s : State) : Nat := if s.rsp.isSome then 1 else 0

/-- One call of the source's FIR filter on its buffer `B[0..N-1]`, oldest to newest (R143): write the newest position, sum
with coefficient `k` on delay `k`, shift keeping a duplicate at the newest position. Returns the buffer and the sum. -/
def sourceFirCall (b : Build) (B : List Sample) (x : Int) : List Sample × Int :=
  let B1 := B.dropLast ++ [BitVec.ofInt 16 x]
  let sum := ∑ j ∈ Finset.range b.NTAPS, b.C (b.NTAPS - 1 - j) * (B1.getD j 0).toInt
  (B1.tail ++ [BitVec.ofInt 16 x], sum)

/-- The quantised outputs of the source's FIR filter over a list of inputs (R143). -/
def sourceFirOutputs (b : Build) : List Sample → List Int → List Int
  | _, [] => []
  | B, x :: xs =>
    let r := sourceFirCall b B x
    (QUANT r.2).value :: sourceFirOutputs b r.1 xs

end Sys2Proof.Safety
end

