-- ==== Sys2Proof/Certificates/Slice0/Obligations.lean ====
section
/-! DEFINITION. The statements for the provers. Each docstring names the rule of spec/ the statement formalises, or the
log entry it rests on where it is the model's own choice. -/

open Sys2Proof Sys2Proof.Machine Sys2Proof.Safety

/-! ### Encoding -/

/-- R72, R73, R74, R79: decoding the word of a well-formed command gives the command back, with its operand. -/
def Obligations.DecodeOfEncodeIsTheCommand : Prop :=
  ∀ i : Instr, i.wellFormed = true → decode (encode i) = .instr i

/-- R72, R80: a word that decodes to a command is that command's one encoding, and the command is well formed. -/
def Obligations.DecodedWordIsItsOneEncoding : Prop :=
  ∀ (w : Word) (i : Instr), decode w = .instr i → encode i = w ∧ i.wellFormed = true

/-- R79: the decoder built from the match and mask table is `DECODE`, on all words. -/
def Obligations.DecoderIsTheDecodeOfTheManual : Prop :=
  ∀ w : Word, (∀ i, DECODE w = some i → decode w = .instr i) ∧ (DECODE w = none → ∃ c, decode w = .illegal c)

/-- R72 (and the operands of R73, R74): the opcode map, word by word; a word that no row matches is illegal; at most one row
matches any word. -/
def Obligations.OpcodeMapRowByRow : Prop :=
  ∀ w : Word,
    (decode w = .instr .nop ↔ w = 0x00000000#32) ∧
    (decode w = .instr .status ↔ w = 0x10000000#32) ∧
    (decode w = .instr .ack ↔ w = 0x20000000#32) ∧
    (∀ x, decode w = .instr (.proc x) ↔ w &&& 0xFFFF0000#32 = 0x30000000#32 ∧ x = (w.extractLsb' 0 16).toInt) ∧
    (∀ raw, decode w = .instr (.procraw raw) ↔
      w &&& 0xFFFFF000#32 = 0x40000000#32 ∧ raw = (w.extractLsb' 0 12).toNat) ∧
    (decode w = .instr .clrst ↔ w = 0x50000000#32) ∧
    (decode w = .instr .info ↔ w = 0x60000000#32) ∧
    ((∃ c, decode w = .illegal c) ↔ ∀ r ∈ opcodeRows, r.encodes w = false) ∧
    opcodeRows.Pairwise fun p q => ¬(p.encodes w = true ∧ q.encodes w = true)

/-- R77: opcodes `0x7` to `0xF` are illegal whatever their other bits hold, and executing such a word is R201. -/
def Obligations.ReservedOpcodesAreIllegal : Prop :=
  ∀ (w : Word) (s : State), 7 ≤ (w.extractLsb' 28 4).toNat →
    (∃ c, decode w = .illegal c) ∧
    runCommand w s = .next { s with S := { s.S with ERR := true }, rsp := some 0#32 }

/-- Words of 95_test_vectors.md section 2.2, bit by bit, and the commands they stand for (sanity). Which
case of R201 the decoder names for an illegal one is the model's choice (log 13). -/
def Obligations.WordsOfTheDecodingTable : Prop :=
  decode 0x00000000#32 = .instr .nop ∧ decode 0x10000000#32 = .instr .status ∧
  decode 0x20000000#32 = .instr .ack ∧ decode 0x30008000#32 = .instr (.proc (-32768)) ∧
  decode 0x30007FFF#32 = .instr (.proc 32767) ∧ decode 0x40000FFF#32 = .instr (.procraw 4095) ∧
  decode 0x50000000#32 = .instr .clrst ∧ decode 0x60000000#32 = .instr .info ∧
  decode 0x30010000#32 = .illegal .reservedField ∧ decode 0x40001000#32 = .illegal .dataField ∧
  decode 0x00000001#32 = .illegal .dataField ∧ decode 0xFFFFFFFF#32 = .illegal .reservedOpcode

/-! ### Events, ports, reset -/

/-- A step on an accepted legal word is `exec` of its command, on the state with the word and the event taken off. -/
def Obligations.StepRunsTheAcceptedCommand : Prop :=
  ∀ (s : State) (w : Word) (ws : List Word) (es : List Event) (i : Instr),
    Offers s w ws es → decode w = .instr i → step s = exec i { s with commands := ws, schedule := es }

/-- R201: an accepted word that is not `LEGAL` sets `ERR`, answers 0, and changes nothing else. -/
def Obligations.IllegalCommandOnlySetsErr : Prop :=
  ∀ (s : State) (w : Word) (ws : List Word) (es : List Event), Offers s w ws es → LEGAL w = false →
    step s = .next { s with commands := ws, schedule := es, S := { s.S with ERR := true }, rsp := some 0#32 }

/-- R100: a TICK with `READY = 1` counts an overrun, saturating; with `READY = 0` it sets `READY`; nothing else changes; a
TICK during reset has no effect. -/
def Obligations.TickSetsReadyOrCountsAnOverrun : Prop :=
  ∀ (s : State) (es : List Event), s.build.wellFormed = true → s.schedule = .tick :: es →
    (s.phase = .running → s.S.READY = true →
      step s = .next { s with schedule := es, S := { s.S with OVR_CNT := BitVec.ofNat 16 (min (s.S.OVR_CNT.toNat + 1) 0xFFFF) } }) ∧
    (s.phase = .running → s.S.READY = false →
      step s = .next { s with schedule := es, S := { s.S with READY := true } }) ∧
    (s.phase = .inReset → step s = .next { s with schedule := es })

/-- R58: a TICK in a command's cycle is ordered after it. ACK then answers `READY` as it was, `READY` ends at 1 and `OVR_CNT`
is unchanged; CLRST then leaves `OVR_CNT` at 0 or 1. -/
def Obligations.TickInACommandsCycleComesAfterIt : Prop :=
  ∀ (s : State) (w : Word) (ws : List Word) (es : List Event),
    Offers { s with schedule := .issue :: es } w ws es → s.schedule = .issueTick :: es →
    ∃ t u : State, step { s with schedule := .issue :: es } = .next t ∧ step s = .next u ∧
      u = { t with S := { t.S with READY := true, OVR_CNT := u.S.OVR_CNT } } ∧
      u.S.OVR_CNT = (if t.S.READY = true then BitVec.ofNat 16 (min (t.S.OVR_CNT.toNat + 1) 0xFFFF) else t.S.OVR_CNT) ∧
      (w = 0x20000000#32 →
        u.rsp = some (STATUS_WORD s.S) ∧ u.S.READY = true ∧ u.S.OVR_CNT = s.S.OVR_CNT) ∧
      (w = 0x50000000#32 → u.S.OVR_CNT = if s.S.READY = true then 1 else 0)

/-- R64: an edge closer than R101 allows gives one more TICK or is merged without being counted; both are admitted (a free
value, log 10). -/
def Obligations.CloseEdgeIsOneTickOrNone : Prop :=
  ∀ (s : State) (es : List Event), s.build.wellFormed = true → s.phase = .running → s.schedule = .closeEdge :: es →
    ∃ t u : State, step s = .next t ∧ step { s with schedule := .tick :: es } = .next u ∧
      (t = { s with schedule := es, choices := s.choices + 1 } ∨ t = { u with choices := s.choices + 1 })

/-- R228, R57, R51, R108: while running the output ports are those of the response port, and `ready_o` is `READY`. While a
response waits no command is accepted and TICKs still take effect; the delivery of the response makes the port ready again.
That a host turn on the stalled port is used up and the word stays is the model's inference (log 4). -/
def Obligations.WaitingResponseStallsTheCommandPort : Prop :=
  ∀ s : State, s.build.wellFormed = true → s.phase = .running →
    (∃ p : OutputPorts, s.outputs = some p ∧ p.ready_o = s.S.READY ∧ p.rsp_data = s.rsp ∧
      (p.rsp_valid = true ↔ s.rsp ≠ none) ∧ (p.cmd_ready = true ↔ s.rsp = none) ∧ p.cmd_ready = s.cmdReady) ∧
    ∀ (r : Word) (es : List Event), s.rsp = some r →
      s.cmdReady = false ∧
      (s.schedule = .issue :: es → step s = .next { s with schedule := es }) ∧
      (s.schedule = .tick :: es → step s = .next { s with schedule := es, S := TICK s.S }) ∧
      (s.schedule = .take :: es →
        ∃ t : State, step s = .next t ∧ t = { s with schedule := es, rsp := none, responses := s.responses ++ [r] } ∧
          t.cmdReady = true)

/-- R57: over any number of events without a reset or a loss of power, each accepted command has exactly one response,
delivered or waiting, and what was delivered stays, in order. -/
def Obligations.EachAcceptedCommandHasOneResponse : Prop :=
  ∀ (n : Nat) (s t : State),
    (∀ e ∈ s.schedule, e ≠ .resetAssert ∧ e ≠ .resetRelease ∧ e ≠ .powerCycle) →
    runSteps n s = .next t →
      (∃ accepted delivered : List Word, s.commands = accepted ++ t.commands ∧
        t.responses = s.responses ++ delivered ∧
        accepted.length + waiting s = delivered.length + waiting t)

/-- R56, R230: the machine with its ports, run on the schedule of any list of commands and TICKs, gives the atomic event order:
the same responses in order and the same final `S`. Each response is taken before the next event (the schedule's form, log 5).
The run that the list holds ends at its last command, has the list's program, leaves out TICKs only, and the machine run on it
gives R230's observation. That a list
with no command holds the empty run is the model's choice (log 24). -/
def Obligations.PortMachineRefinesTheEventOrder : Prop :=
  ∀ (b : Build) (es : List RunEvent), b.wellFormed = true →
    ∃ t u : State,
      runSteps (State.startOf b es).schedule.length (State.startOf b es) = .next t ∧
      t.S = (observe b es (Engine.afterReset b)).1 ∧ t.responses = (observe b es (Engine.afterReset b)).2 ∧
      t.commands = [] ∧ t.schedule = [] ∧ t.rsp = none ∧
      runSteps (State.startOf b (untilLastCommand es)).schedule.length (State.startOf b (untilLastCommand es)) = .next u ∧
      u.S = (observation b es).1 ∧ u.responses = (observation b es).2 ∧
      u.commands = [] ∧ u.schedule = [] ∧ u.rsp = none ∧
      IsRunOf (programOf es) (untilLastCommand es) ∧
      (untilLastCommand es = [] ∨ ∃ (first : List RunEvent) (w : Word), untilLastCommand es = first ++ [.command w]) ∧
      (∃ n : Nat, es = untilLastCommand es ++ List.replicate n .tick) ∧ t.responses = u.responses

/-- R220, R36: asserting and releasing reset leaves every field of `S` at its value of R36, from every state; the build does
not change. That the responses already delivered and the host's words outlive a reset is the model's choice (log 18). -/
def Obligations.ResetLeavesTheResetValues : Prop :=
  ∀ (s : State) (es : List Event), s.build.wellFormed = true → s.schedule = .resetAssert :: .resetRelease :: es →
    ∃ t : State, runSteps 2 s = .next t ∧ t.build = s.build ∧ t.phase = .running ∧
      t.S.READY = false ∧ t.S.OVR_CNT = 0x0000#16 ∧ t.S.ERR = false ∧ t.S.SAT = false ∧
      Fits t.build t.S.filter ∧ AllZero t.S.filter ∧ t.rsp = none ∧ t.schedule = es ∧
      t.commands = s.commands ∧ t.responses = s.responses

/-- R221, R220: while reset is asserted no command is accepted, no response is offered, `ready_o` is 0 and tick edges have no
effect; asserting it abandons an unanswered command. That `S` has its reset values already then is log 7. Releasing it makes
the engine run with the values of R36; a release of reset that is not asserted changes nothing (log 8; before the first reset
too, log 23). -/
def Obligations.NothingHappensWhileResetIsAsserted : Prop :=
  ∀ s : State, Inv s →
    (s.phase = .inReset →
      s.outputs = some ⟨false, false, none, false⟩ ∧
      ∀ (e : Event) (es : List Event), s.schedule = e :: es →
        e ∈ [Event.issue, .take, .tick, .issueTick, .closeEdge] → step s = .next { s with schedule := es }) ∧
    (∀ es : List Event, s.schedule = .resetAssert :: es →
      step s = .next { s with
        schedule := es, phase := .inReset, S := Engine.afterReset s.build, rsp := none }) ∧
    (∀ es : List Event, s.schedule = .resetRelease :: es →
      (s.phase = .inReset →
        step s = .next { s with schedule := es, phase := .running, S := Engine.afterReset s.build, rsp := none }) ∧
      (s.phase ≠ .inReset → step s = .next { s with schedule := es }))

/-- R222: between power-up and the first reset the outputs are unspecified, and a command, a TICK and a response transfer (this
one by inference, log 11) are refused. -/
def Obligations.EventsBeforeTheFirstResetAreRefused : Prop :=
  ∀ s : State, s.build.wellFormed = true → s.phase = .beforeReset →
    s.outputs = none ∧
    ∀ (e : Event) (es : List Event), s.schedule = e :: es → e ∈ [Event.issue, .take, .tick, .issueTick, .closeEdge] →
      step s = .refused .beforeFirstReset

/-- R211, R222 and log 9: a loss of power leaves the phase before the first reset, with no response and the same build. That it
does so while `rst_n` is low too is the model's choice (log 23). -/
def Obligations.PowerLossNeedsAReset : Prop :=
  ∀ (s : State) (es : List Event), s.build.wellFormed = true → s.schedule = .powerCycle :: es →
    ∃ t : State, step s = .next t ∧ t.phase = .beforeReset ∧ t.build = s.build ∧ t.rsp = none ∧
      Fits t.build t.S.filter ∧ t.schedule = es ∧ t.commands = s.commands ∧ t.responses = s.responses

/-- R6: a build is accepted exactly when its four conditions hold, its coefficients are then the given numbers, and a step
refuses any other build. -/
def Obligations.OnlyWellFormedBuildsAreAccepted : Prop :=
  (∀ (st nt no ns : Nat) (coef : List Int),
    ((∃ b, Build.ofParams st nt no ns coef = some b) ↔
      (st = 0 ∧ 1 ≤ nt ∧ nt ≤ 64 ∧ coef.length = nt ∨
        st = 1 ∧ 1 ≤ no ∧ no ≤ 8 ∧ coef.length = 2 * no + 1 ∨
        st = 2 ∧ 1 ≤ ns ∧ ns ≤ 8 ∧ coef.length = 5 * ns) ∧
      ∀ c ∈ coef, -131072 ≤ c ∧ c ≤ 131071) ∧
    ∀ b, Build.ofParams st nt no ns coef = some b →
      b.wellFormed = true ∧ b.STRUCT.code = st ∧ ∀ i < coef.length, b.C i = coef.getD i 0) ∧
  ∀ s : State, s.build.wellFormed = false → step s = .refused .illFormedBuild

/-! ### The control commands -/

/-- R102, R103, R106: NOP answers 0, STATUS the STATUS word, INFO the INFO word; nothing but the response changes. -/
def Obligations.NopStatusInfoOnlyAnswer : Prop :=
  ∀ s : State,
    exec .nop s = .next { s with rsp := some 0x00000000#32 } ∧
    exec .status s = .next { s with rsp := some (STATUS_WORD s.S) } ∧
    exec .info s = .next { s with rsp := some s.build.INFO_WORD }

/-- R104: ACK answers the STATUS word before the clear and clears `READY`; nothing else changes. -/
def Obligations.AckAnswersThenClearsReady : Prop :=
  ∀ s : State, exec .ack s = .next { s with S := { s.S with READY := false }, rsp := some (STATUS_WORD s.S) }

/-- R105: CLRST answers the STATUS word before the clears and clears `ERR`, `SAT` and `OVR_CNT`, not `READY`; nothing else
changes. -/
def Obligations.ClrstAnswersThenClearsTheStickyStatus : Prop :=
  ∀ s : State, exec .clrst s =
    .next { s with S := { s.S with ERR := false, SAT := false, OVR_CNT := 0x0000#16 }, rsp := some (STATUS_WORD s.S) }

/-- R27: the fields of the STATUS word. -/
def Obligations.StatusWordFields : Prop :=
  ∀ S : Engine, (STATUS_WORD S).getLsbD 0 = S.READY ∧ (STATUS_WORD S).getLsbD 1 = S.ERR ∧
    (STATUS_WORD S).getLsbD 2 = S.SAT ∧ (STATUS_WORD S).extractLsb' 3 13 = 0#13 ∧
    (STATUS_WORD S).extractLsb' 16 16 = S.OVR_CNT

/-- R28: the fields of the INFO word of a well-formed build. -/
def Obligations.InfoWordFields : Prop :=
  ∀ b : Build, b.wellFormed = true →
    (b.INFO_WORD.extractLsb' 0 4).toNat = (match b.STRUCT with | .FIR => 0 | .IIR_DIRECT => 1 | .IIR_CASCADE => 2) ∧
    (b.INFO_WORD.extractLsb' 4 8).toNat =
      (match b.STRUCT with | .FIR => b.NTAPS | .IIR_DIRECT => b.NORD | .IIR_CASCADE => b.NSEC) ∧
    b.INFO_WORD.extractLsb' 12 4 = 1#4 ∧ b.INFO_WORD.extractLsb' 16 16 = 0#16

/-! ### The filter commands -/

/-- R140: PROC on a FIR build. The history shifts and takes the sample; the response is the rounded and saturated sum; `SAT` is
set exactly when it saturates; nothing else changes. -/
def Obligations.ProcOnAFirBuild : Prop :=
  ∀ (s : State) (x : Int), s.build.STRUCT = .FIR → 1 ≤ s.build.NTAPS → s.S.filter.H.length = s.build.NTAPS →
    InSampleRange x →
    ∃ (H : List Sample) (v : Int),
      H.length = s.build.NTAPS ∧ H.getD 0 0 = BitVec.ofInt 16 x ∧
      (∀ k, 1 ≤ k → k < s.build.NTAPS → H.getD k 0 = s.S.filter.H.getD (k - 1) 0) ∧
      v = ((∑ k ∈ Finset.range s.build.NTAPS, s.build.C k * (H.getD k 0).toInt) + 8192) / 16384 ∧
      exec (.proc x) s = .next { s with
        S := { s.S with
          filter := { s.S.filter with H := H }
          SAT := s.S.SAT || decide (v < -32768 ∨ 32767 < v) }
        rsp := some (BitVec.ofInt 32 (max (-32768) (min v 32767))) }

/-- R160, R165: PROC on a direct-form build. The sum uses the histories before the update; then both shift, `YH[1]` taking the
returned sample; nothing else changes. -/
def Obligations.ProcOnADirectFormBuild : Prop :=
  ∀ (s : State) (x : Int), s.build.STRUCT = .IIR_DIRECT → 1 ≤ s.build.NORD →
    s.S.filter.XH.length = s.build.NORD → s.S.filter.YH.length = s.build.NORD → InSampleRange x →
    ∃ (XH YH : List Sample) (v y : Int),
      v = (s.build.C 0 * x
            + (∑ j ∈ Finset.range s.build.NORD, s.build.C (j + 1) * (s.S.filter.XH.getD j 0).toInt)
            - (∑ j ∈ Finset.range s.build.NORD, s.build.C (s.build.NORD + (j + 1)) * (s.S.filter.YH.getD j 0).toInt)
            + 8192) / 16384 ∧
      y = max (-32768) (min v 32767) ∧
      XH.length = s.build.NORD ∧ YH.length = s.build.NORD ∧
      XH.getD 0 0 = BitVec.ofInt 16 x ∧ YH.getD 0 0 = BitVec.ofInt 16 y ∧
      (∀ j, 1 ≤ j → j < s.build.NORD →
        XH.getD j 0 = s.S.filter.XH.getD (j - 1) 0 ∧ YH.getD j 0 = s.S.filter.YH.getD (j - 1) 0) ∧
      exec (.proc x) s = .next { s with
        S := { s.S with
          filter := { s.S.filter with XH := XH, YH := YH }
          SAT := s.S.SAT || decide (v < -32768 ∨ 32767 < v) }
        rsp := some (BitVec.ofInt 32 y) }

/-- R180, R182, R183: PROC on a cascade build. `v 0` is the input, `v (i+1)` the quantised output of section `i`; each section
records its own input and output; `SAT` is set exactly when some section saturates; nothing else changes. -/
def Obligations.ProcOnACascadeBuild : Prop :=
  ∀ (s : State) (x : Int), s.build.STRUCT = .IIR_CASCADE → s.S.filter.SEC.length = s.build.NSEC → InSampleRange x →
    ∃ (SEC : List SectionState) (v r : Nat → Int) (sat : Bool),
      v 0 = x ∧ SEC.length = s.build.NSEC ∧
      (∀ i < s.build.NSEC, ∃ c : SectionState, s.S.filter.SEC[i]? = some c ∧
        r i = (s.build.C (5 * i) * v i + s.build.C (5 * i + 1) * c.SX1.toInt + s.build.C (5 * i + 2) * c.SX2.toInt
                - s.build.C (5 * i + 3) * c.SY1.toInt - s.build.C (5 * i + 4) * c.SY2.toInt + 8192) / 16384 ∧
        v (i + 1) = max (-32768) (min (r i) 32767) ∧
        SEC[i]? = some ⟨BitVec.ofInt 16 (v i), c.SX1, BitVec.ofInt 16 (v (i + 1)), c.SY1⟩) ∧
      (sat = true ↔ ∃ i < s.build.NSEC, r i < -32768 ∨ 32767 < r i) ∧
      exec (.proc x) s = .next { s with
        S := { s.S with filter := { s.S.filter with SEC := SEC }, SAT := s.S.SAT || sat }
        rsp := some (BitVec.ofInt 32 (v s.build.NSEC)) }

/-- R127, R122, R126: PROC completes on every operand in every state, and its response is a sample in range: on every build, an
unstable one too. -/
def Obligations.ProcAnswersASampleInRange : Prop :=
  ∀ (s : State) (x : Int), InSampleRange x →
    ∃ (t : State) (y : Int), exec (.proc x) s = .next t ∧ t.rsp = some (BitVec.ofInt 32 y) ∧ InSampleRange y

/-- R128, R124, R125: PROCRAW is PROC on the normalized code, its response denormalized and clamped, `SAT` set by the clamp
as well; on every build, in every state. -/
def Obligations.ProcrawIsNormalizeFilterDenormalize : Prop :=
  ∀ (s : State) (raw : Nat), raw ≤ 4095 →
    ∃ (t : State) (y r : Int),
      exec (.proc (((raw : Int) - 2048) * 4)) s = .next t ∧ t.rsp = some (BitVec.ofInt 32 y) ∧ InSampleRange y ∧
      r = (y + 2) / 4 + 2048 ∧
      exec (.procraw raw) s = .next { t with
        S := { t.S with SAT := t.S.SAT || decide (r < 0 ∨ 4095 < r) }
        rsp := some (BitVec.ofInt 32 (max 0 (min r 4095))) }

/-- R63: the frame of PROC and PROCRAW. They write the filter words of the build's own structure, `SAT` (never clearing it) and
the response, and nothing else. -/
def Obligations.FilterCommandsFrame : Prop :=
  ∀ (i : Instr) (s t : State), ((∃ x, i = .proc x) ∨ ∃ raw, i = .procraw raw) → exec i s = .next t →
    t.build = s.build ∧ t.phase = s.phase ∧ t.commands = s.commands ∧ t.schedule = s.schedule ∧
    t.responses = s.responses ∧ t.choices = s.choices ∧
    t.S.READY = s.S.READY ∧ t.S.ERR = s.S.ERR ∧ t.S.OVR_CNT = s.S.OVR_CNT ∧ (s.S.SAT = true → t.S.SAT = true) ∧
    (s.build.STRUCT ≠ .FIR → t.S.filter.H = s.S.filter.H) ∧
    (s.build.STRUCT ≠ .IIR_DIRECT → t.S.filter.XH = s.S.filter.XH ∧ t.S.filter.YH = s.S.filter.YH) ∧
    (s.build.STRUCT ≠ .IIR_CASCADE → t.S.filter.SEC = s.S.filter.SEC)

/-- R130: the response of a filter command, the filter state it leaves and whether it sets `SAT` depend only on the build, the
filter state before it and the operand, not on the flags, the counter or anything else. -/
def Obligations.FilteringIgnoresTheFlags : Prop :=
  ∀ (i : Instr) (s₁ s₂ : State), ((∃ x, i = .proc x) ∨ ∃ raw, i = .procraw raw) →
    s₁.build = s₂.build → s₁.S.filter = s₂.S.filter →
    ∃ (t₁ t₂ : State) (sat : Bool), exec i s₁ = .next t₁ ∧ exec i s₂ = .next t₂ ∧ t₁.rsp = t₂.rsp ∧
      t₁.S.filter = t₂.S.filter ∧ t₁.S.SAT = (s₁.S.SAT || sat) ∧ t₂.S.SAT = (s₂.S.SAT || sat)

/-- R37: no command but PROC and PROCRAW, no illegal word, no TICK and no output port shows anything of the filter state. -/
def Obligations.FilterStateCannotBeRead : Prop :=
  ∀ (s : State) (f : FilterState) (w : Word),
    (∀ x, DECODE w ≠ some (.proc x)) → (∀ raw, DECODE w ≠ some (.procraw raw)) →
    ∃ t : State, runCommand w s = .next t ∧
      runCommand w { s with S := { s.S with filter := f } } = .next { t with S := { t.S with filter := f } } ∧
      State.tick { s with S := { s.S with filter := f } } =
        { s.tick with S := { s.tick.S with filter := f } } ∧
      State.outputs { s with S := { s.S with filter := f } } = s.outputs

/-! ### Who writes what, over every step -/

/-- R23: `READY` is set by a TICK (a close edge is one or none, log 10), cleared by ACK and by reset, and written by no other
event (a loss of power aside); a release of reset that is not asserted and an event in reset write it neither (log 8). That
it is 0 already while reset is asserted is the model's inference (log 7). -/
def Obligations.ReadyIsWrittenOnlyByTickAckAndReset : Prop :=
  ∀ s t : State, Inv s → step s = .next t →
    (replacesS s = false → bringsTick s = false → accepted s ≠ some 0x20000000#32 → t.S.READY = s.S.READY) ∧
    (bringsTick s = false → accepted s = some 0x20000000#32 → t.S.READY = false) ∧
    (∀ es, s.phase = .running → (s.schedule = .tick :: es ∨ s.schedule = .issueTick :: es) → t.S.READY = true) ∧
    (∀ es, s.schedule = .resetAssert :: es ∨ (s.phase = .inReset ∧ s.schedule = .resetRelease :: es) →
      t.S.READY = false) ∧
    (s.phase = .inReset → replacesS s = false → t.S.READY = s.S.READY) ∧
    (∀ es, s.schedule = .closeEdge :: es → t.S.READY = s.S.READY ∨ t.S.READY = true)

/-- R24: `ERR` is set by an illegal command, cleared by CLRST and by reset, and written by no other event (a loss of power
aside). That `ERR` is 0 already while reset is asserted is the model's inference (log 7), and that
a release of reset that is not asserted writes nothing (log 8). -/
def Obligations.ErrIsWrittenOnlyByIllegalClrstAndReset : Prop :=
  ∀ s t : State, Inv s → step s = .next t →
    (∀ w, accepted s = some w → LEGAL w = false → t.S.ERR = true) ∧
    (accepted s = some 0x50000000#32 → t.S.ERR = false) ∧
    (replacesS s = false → accepted s ≠ some 0x50000000#32 → (∀ w, accepted s = some w → LEGAL w = true) →
      t.S.ERR = s.S.ERR) ∧
    (∀ es, s.schedule = .resetAssert :: es ∨ (s.phase = .inReset ∧ s.schedule = .resetRelease :: es) →
      t.S.ERR = false)

/-- R25: `SAT` is only ever set by PROC and PROCRAW, cleared by CLRST and by reset, and written by no other event (a loss of
power aside). That `SAT` is 0 already while reset is asserted is the model's inference (log 7), and that
a release of reset that is not asserted writes nothing (log 8). -/
def Obligations.SatIsWrittenOnlyByFilteringClrstAndReset : Prop :=
  ∀ s t : State, Inv s → step s = .next t →
    (accepted s = some 0x50000000#32 → t.S.SAT = false) ∧
    (replacesS s = false → accepted s ≠ some 0x50000000#32 → s.S.SAT = true → t.S.SAT = true) ∧
    (replacesS s = false → accepted s ≠ some 0x50000000#32 →
      (∀ w x raw, accepted s = some w → DECODE w ≠ some (.proc x) ∧ DECODE w ≠ some (.procraw raw)) →
      t.S.SAT = s.S.SAT) ∧
    (∀ es, s.schedule = .resetAssert :: es ∨ (s.phase = .inReset ∧ s.schedule = .resetRelease :: es) →
      t.S.SAT = false)

/-- R107, first part: `OVR_CNT` changes only by a TICK (by +1, never wrapping), CLRST (to 0, where no TICK comes in its cycle:
R58) and reset (a loss of power aside). That it is 0 already while reset is asserted is the model's inference (log 7), and
that a release of reset that is not asserted writes nothing (log 8). -/
def Obligations.OverrunCounterIsWrittenOnlyByTickClrstAndReset : Prop :=
  ∀ s t : State, Inv s → step s = .next t →
    (replacesS s = false → bringsTick s = false → accepted s ≠ some 0x50000000#32 → t.S.OVR_CNT = s.S.OVR_CNT) ∧
    (replacesS s = false → accepted s ≠ some 0x50000000#32 →
      s.S.OVR_CNT.toNat ≤ t.S.OVR_CNT.toNat ∧ t.S.OVR_CNT.toNat ≤ s.S.OVR_CNT.toNat + 1) ∧
    (bringsTick s = false → accepted s = some 0x50000000#32 → t.S.OVR_CNT = 0#16) ∧
    (∀ es, s.schedule = .resetAssert :: es ∨ (s.phase = .inReset ∧ s.schedule = .resetRelease :: es) →
      t.S.OVR_CNT = 0#16) ∧
    (s.phase = .inReset → replacesS s = false → t.S.OVR_CNT = s.S.OVR_CNT)

/-- R107, second part: between two CLRSTs or resets `OVR_CNT` is `min(L, 0xFFFF)`, `L` the number of TICKs that found
`READY = 1`, over every sequence of commands and TICKs. -/
def Obligations.OverrunCounterCountsTheLostTicks : Prop :=
  ∀ (b : Build) (es : List RunEvent) (S : Engine), S.OVR_CNT = 0#16 → .command 0x50000000#32 ∉ es →
    (observe b es S).1.OVR_CNT.toNat = min (overruns b es S) 0xFFFF

/-- R129: the filter state changes by an accepted PROC or PROCRAW, through one `FILTER_STEP`, and otherwise only by reset (a
loss of power aside). That a release of reset, asserted (log 7) or not (log 8), does not change it is the model's
inference. -/
def Obligations.FilterStateChangesOnlyByFiltering : Prop :=
  ∀ s t : State, Inv s → step s = .next t → replacesS s = false →
    ((∀ w x raw, accepted s = some w → DECODE w ≠ some (.proc x) ∧ DECODE w ≠ some (.procraw raw)) →
      t.S.filter = s.S.filter) ∧
    (∀ w x, accepted s = some w → DECODE w = some (.proc x) →
      t.S.filter = (FILTER_STEP s.build s.S.filter x).filter) ∧
    (∀ w raw, accepted s = some w → DECODE w = some (.procraw raw) →
      t.S.filter = (FILTER_STEP s.build s.S.filter (((raw : Int) - 2048) * 4)).filter)

/-- R224: clearing first keeps a tick that comes during the filtering; filtering first and clearing last loses it and counts
it. -/
def Obligations.ClearFirstKeepsTheTick : Prop :=
  ∀ (b : Build) (S : Engine) (raw : Nat), raw ≤ 4095 → S.READY = true →
    (observe b [.command 0x20000000#32, .command (encode (.procraw raw)), .tick] S).1.READY = true ∧
    (observe b [.command 0x20000000#32, .command (encode (.procraw raw)), .tick] S).1.OVR_CNT = S.OVR_CNT ∧
    (observe b [.command 0x20000000#32, .tick, .command (encode (.procraw raw))] S).1.READY = true ∧
    (observe b [.command 0x20000000#32, .tick, .command (encode (.procraw raw))] S).1.OVR_CNT = S.OVR_CNT ∧
    (observe b [.command (encode (.procraw raw)), .tick, .command 0x20000000#32] S).1.READY = false ∧
    (observe b [.command (encode (.procraw raw)), .tick, .command 0x20000000#32] S).1.OVR_CNT.toNat =
      min (S.OVR_CNT.toNat + 1) 0xFFFF

/-! ### Invariants -/

/-- Every step keeps the invariant: the build's legality, exactly the words of its structure in the filter state, no response
outside running, reset values while in reset (log 7). -/
def Obligations.EveryStepKeepsTheInvariant : Prop :=
  ∀ s t : State, Inv s → step s = .next t → Inv t

/-- The state after reset of every well-formed build meets the invariant, and so does `State.reset` (whose build is the model's
choice, log 2). -/
def Obligations.ResetMeetsTheInvariant : Prop :=
  (∀ b : Build, b.wellFormed = true → Inv (State.resetOf b)) ∧ Inv State.reset

/-- R33: no event changes the coefficients or any other build parameter, reset included. -/
def Obligations.NoEventChangesTheBuild : Prop :=
  ∀ (n : Nat) (s t : State), runSteps n s = .next t → t.build = s.build

/-! ### Arithmetic -/

/-- R121: rounding is to the nearest, halves toward plus infinity, with the rule's three values. -/
def Obligations.RoundingIsToNearestHalvesUp : Prop :=
  (∀ a : Int, RND14 a = (a + 8192) / 16384 ∧ -8192 < RND14 a * 16384 - a ∧ RND14 a * 16384 - a ≤ 8192) ∧
  RND14 8192 = 1 ∧ RND14 (-8192) = 0 ∧ RND14 (-8193) = -1

/-- R120: products are at most `2^32` in magnitude, sums at most `2^38`, so the 48-bit accumulator never wraps. -/
def Obligations.SumsFitTheAccumulator : Prop :=
  ∀ b : Build, b.wellFormed = true →
    (∀ (i : Nat) (w : Sample), |b.C i * w.toInt| ≤ 2 ^ 32) ∧
    (b.STRUCT = .FIR → ∀ H : List Sample,
      |firSum b H| ≤ 2 ^ 38 ∧ (BitVec.ofInt 48 (firSum b H)).toInt = firSum b H) ∧
    (b.STRUCT = .IIR_DIRECT → ∀ (f : FilterState) (x : Int), InSampleRange x →
      |dfSum b f x| ≤ 17 * 2 ^ 32 ∧ (BitVec.ofInt 48 (dfSum b f x)).toInt = dfSum b f x) ∧
    (b.STRUCT = .IIR_CASCADE → ∀ (i : Nat) (c : SectionState) (v : Int), InSampleRange v →
      |sectionSum b i c v| ≤ 5 * 2 ^ 32 ∧ (BitVec.ofInt 48 (sectionSum b i c v)).toInt = sectionSum b i c v)

/-- R131, R124: `NORM` maps a raw code into `[-8192, 8188]`, and `DENORM` maps it back exactly without clamping. -/
def Obligations.DenormOfNormIsTheRawCode : Prop :=
  ∀ raw : Nat, raw ≤ 4095 →
    NORM raw = ((raw : Int) - 2048) * 4 ∧ -8192 ≤ NORM raw ∧ NORM raw ≤ 8188 ∧ DENORM (NORM raw) = ⟨raw, false⟩

/-- R125: `DENORM` rounds `y/4` to the nearest with halves up, and clamps exactly the samples outside `[-8194, 8189]`. -/
def Obligations.DenormClampsOutsideItsRange : Prop :=
  ∀ y : Int, InSampleRange y →
    ((DENORM y).saturated = true ↔ y < -8194 ∨ 8189 < y) ∧
    (DENORM y).value = max 0 (min ((y + 2) / 4 + 2048) 4095)

/-! ### Laws of the FIR structure -/

/-- R141, R29: from reset, call `n` returns the quantised convolution of the coefficients with the inputs, and after the last
input `H[k]` holds the input `k` samples older, zero before the first. -/
def Obligations.FirConvolutionLaw : Prop :=
  ∀ (s : State) (xs : List Int), s.build.wellFormed = true → s.build.STRUCT = .FIR → Fits s.build s.S.filter →
    AllZero s.S.filter → (∀ x ∈ xs, InSampleRange x) →
    ∃ (t : State) (ws : List Word), execAll (xs.map .proc) s = some (t, ws) ∧ ws.length = xs.length ∧
      (∀ n < xs.length,
        answer ws n = (QUANT (∑ k ∈ Finset.range s.build.NTAPS, s.build.C k * delayed (nth xs) n k)).value) ∧
      ∀ k < s.build.NTAPS, (t.S.filter.H.getD k 0).toInt = delayed (nth xs) xs.length (k + 1)

/-- R142: from reset, the impulse 1.0 followed by zeros gives the saturated coefficients in order, then zeros (log 22 on
`SAT`, of which nothing is said). -/
def Obligations.FirImpulseLaw : Prop :=
  ∀ (s : State) (m : Nat), s.build.wellFormed = true → s.build.STRUCT = .FIR → Fits s.build s.S.filter →
    AllZero s.S.filter →
    ∃ (t : State) (ws : List Word), execAll (.proc 0x4000 :: List.replicate m (.proc 0)) s = some (t, ws) ∧
      ws.length = m + 1 ∧
      ∀ n ≤ m, answer ws n = if n < s.build.NTAPS then max (-32768) (min (s.build.C n) 32767) else 0

/-- R143: the source's step order (insert, sum, shift, on an oldest-to-newest buffer) gives the same outputs as FIR_STEP on
every input sequence from reset. -/
def Obligations.SourceFirOrderGivesTheSameOutputs : Prop :=
  ∀ (s : State) (xs : List Int), s.build.wellFormed = true → s.build.STRUCT = .FIR → Fits s.build s.S.filter →
    AllZero s.S.filter → (∀ x ∈ xs, InSampleRange x) →
    ∃ (t : State) (ws : List Word), execAll (xs.map .proc) s = some (t, ws) ∧
      ws.map BitVec.toInt = sourceFirOutputs s.build (List.replicate s.build.NTAPS 0) xs

/-- R144: from every state, `NTAPS` or more calls with one input fill the history with it, and each further call returns
`QUANT(x * Σ C[k])`. -/
def Obligations.FirSteadyState : Prop :=
  ∀ (s : State) (x : Int) (m : Nat), s.build.wellFormed = true → s.build.STRUCT = .FIR → Fits s.build s.S.filter →
    InSampleRange x → s.build.NTAPS ≤ m →
    ∃ (t u : State) (ws : List Word), execAll (List.replicate m (.proc x)) s = some (t, ws) ∧
      (∀ k < s.build.NTAPS, t.S.filter.H.getD k 0 = BitVec.ofInt 16 x) ∧ exec (.proc x) t = .next u ∧
      u.rsp = some (BitVec.ofInt 32 (QUANT (x * ∑ k ∈ Finset.range s.build.NTAPS, s.build.C k)).value)

/-- R145: the identity filter with centre `c` delays raw codes by `c` calls exactly, answers 2048 before that, and never
sets `SAT`. -/
def Obligations.IdentityFirDelaysRawCodes : Prop :=
  ∀ (s : State) (c : Nat) (raws : List Nat), s.build.wellFormed = true → s.build.STRUCT = .FIR →
    Fits s.build s.S.filter → AllZero s.S.filter → c < s.build.NTAPS →
    (∀ k < s.build.NTAPS, s.build.C k = if k = c then 0x4000 else 0) → (∀ r ∈ raws, r ≤ 4095) →
    ∃ (t : State) (ws : List Word), execAll (raws.map .procraw) s = some (t, ws) ∧ ws.length = raws.length ∧
      (∀ n < raws.length, answer ws n = if c ≤ n then (raws.getD (n - c) 0 : Int) else 2048) ∧ t.S.SAT = s.S.SAT

/-- R146: on every FIR build, `NTAPS` or more `procraw 2048` from any state zero the history and every later one returns 2048;
from reset every one does. -/
def Obligations.FirMidScaleLaw : Prop :=
  ∀ (s : State) (m : Nat), s.build.wellFormed = true → s.build.STRUCT = .FIR → Fits s.build s.S.filter →
    (s.build.NTAPS ≤ m →
      ∃ (t u : State) (ws : List Word), execAll (List.replicate m (.procraw 2048)) s = some (t, ws) ∧
        (∀ w ∈ t.S.filter.H, w = 0#16) ∧ exec (.procraw 2048) t = .next u ∧ u.rsp = some 0x00000800#32) ∧
    (AllZero s.S.filter →
      ∃ t : State, execAll (List.replicate m (.procraw 2048)) s = some (t, List.replicate m 0x00000800#32))

/-! ### Laws of the IIR structures -/

/-- R161, R30: from reset, the direct form's outputs follow the recurrence on its own quantised outputs, and while the sum of
the next call runs `XH[i]` and `YH[i]` hold the input and the output `i` calls before it. -/
def Obligations.DirectFormRecurrenceLaw : Prop :=
  ∀ (s : State) (xs : List Int), s.build.wellFormed = true → s.build.STRUCT = .IIR_DIRECT → Fits s.build s.S.filter →
    AllZero s.S.filter → (∀ x ∈ xs, InSampleRange x) →
    ∃ (t : State) (ws : List Word), execAll (xs.map .proc) s = some (t, ws) ∧ ws.length = xs.length ∧
      (∀ n < xs.length, answer ws n = (QUANT (s.build.B 0 * nth xs n
        + (∑ i ∈ Finset.range s.build.NORD, s.build.B (i + 1) * delayed (nth xs) n (i + 1))
        - ∑ i ∈ Finset.range s.build.NORD, s.build.A (i + 1) * delayed (answer ws) n (i + 1))).value) ∧
      ∀ j < s.build.NORD, (t.S.filter.XH.getD j 0).toInt = delayed (nth xs) xs.length (j + 1) ∧
        (t.S.filter.YH.getD j 0).toInt = delayed (answer ws) xs.length (j + 1)

/-- R162: the first two outputs of the direct form's impulse response from reset: the shift comes after the sum. -/
def Obligations.DirectFormImpulseShowsShiftAfterSum : Prop :=
  ∀ s : State, s.build.wellFormed = true → s.build.STRUCT = .IIR_DIRECT → Fits s.build s.S.filter →
    AllZero s.S.filter →
    ∃ (t : State) (w₀ w₁ : Word), execAll [.proc 0x4000, .proc 0] s = some (t, [w₀, w₁]) ∧
      w₀.toInt = max (-32768) (min (s.build.B 0) 32767) ∧
      w₁.toInt = (QUANT (s.build.B 1 * 2 ^ 14 - s.build.A 1 * w₀.toInt)).value

/-- R163: where a constant input holds the direct form at a constant output without saturation, the output is within the rule's
bound of the DC gain. -/
def Obligations.DirectFormDcLaw : Prop :=
  ∀ (s t : State) (x y : Int), s.build.wellFormed = true → s.build.STRUCT = .IIR_DIRECT → Fits s.build s.S.filter →
    InSampleRange x → InSampleRange y →
    0 < 2 ^ 14 + ∑ i ∈ Finset.range s.build.NORD, s.build.A (i + 1) →
    (∀ w ∈ s.S.filter.XH, w.toInt = x) → (∀ w ∈ s.S.filter.YH, w.toInt = y) →
    exec (.proc x) s = .next t → t.rsp = some (BitVec.ofInt 32 y) → t.S.SAT = false →
    (-(2 ^ 13) ≤ x * (∑ i ∈ Finset.range (s.build.NORD + 1), s.build.B i)
        - y * (2 ^ 14 + ∑ i ∈ Finset.range s.build.NORD, s.build.A (i + 1)) ∧
      x * (∑ i ∈ Finset.range (s.build.NORD + 1), s.build.B i)
        - y * (2 ^ 14 + ∑ i ∈ Finset.range s.build.NORD, s.build.A (i + 1)) < 2 ^ 13) ∧
    |(y : ℚ) - x * (∑ i ∈ Finset.range (s.build.NORD + 1), s.build.B i : ℤ)
        / (2 ^ 14 + ∑ i ∈ Finset.range s.build.NORD, s.build.A (i + 1) : ℤ)|
      ≤ 2 ^ 13 / (2 ^ 14 + ∑ i ∈ Finset.range s.build.NORD, s.build.A (i + 1) : ℤ)

/-- R164: with input held at 0, `NORD` calls clear `XH`, each further output is `QUANT(-Σ A[i]*y[n-i])`, and every output is in
range. -/
def Obligations.DirectFormZeroInput : Prop :=
  ∀ (s : State) (m : Nat), s.build.wellFormed = true → s.build.STRUCT = .IIR_DIRECT → Fits s.build s.S.filter →
    s.build.NORD ≤ m →
    ∃ (t u : State) (ws : List Word), execAll (List.replicate m (.proc 0)) s = some (t, ws) ∧
      (∀ w ∈ t.S.filter.XH, w = 0#16) ∧ (∀ w ∈ ws, InSampleRange w.toInt) ∧
      (∀ i < s.build.NORD, (t.S.filter.YH.getD i 0).toInt = (ws.reverse.getD i 0).toInt) ∧
      exec (.proc 0) t = .next u ∧
      u.rsp = some (BitVec.ofInt 32
        (QUANT (-∑ i ∈ Finset.range s.build.NORD, s.build.A (i + 1) * (t.S.filter.YH.getD i 0).toInt)).value)

/-- R181: from reset, every section's outputs follow its recurrence, each section's output is the next one's input, the call
returns the last section's output, and while the sum of the next call runs a section's state holds its two last inputs and
its two last outputs. -/
def Obligations.CascadeRecurrenceLaw : Prop :=
  ∀ (s : State) (xs : List Int), s.build.wellFormed = true → s.build.STRUCT = .IIR_CASCADE → Fits s.build s.S.filter →
    AllZero s.S.filter → (∀ x ∈ xs, InSampleRange x) →
    ∃ (t : State) (ws : List Word) (u : Nat → Nat → Int), execAll (xs.map .proc) s = some (t, ws) ∧
      ws.length = xs.length ∧
      (∀ n < xs.length, u 0 n = nth xs n ∧ answer ws n = u s.build.NSEC n ∧
        ∀ i < s.build.NSEC, u (i + 1) n = (QUANT (s.build.b0 i * u i n
          + s.build.b1 i * delayed (u i) n 1 + s.build.b2 i * delayed (u i) n 2
          - s.build.a1 i * delayed (u (i + 1)) n 1 - s.build.a2 i * delayed (u (i + 1)) n 2)).value) ∧
      ∀ i < s.build.NSEC, ∃ c : SectionState, t.S.filter.SEC[i]? = some c ∧
        c.SX1.toInt = delayed (u i) xs.length 1 ∧ c.SX2.toInt = delayed (u i) xs.length 2 ∧
        c.SY1.toInt = delayed (u (i + 1)) xs.length 1 ∧ c.SY2.toInt = delayed (u (i + 1)) xs.length 2

/-- R184: where a constant input holds every section of the cascade constant without saturation, each section's output is within
the bound of its own DC gain. -/
def Obligations.CascadeDcLaw : Prop :=
  ∀ (s t : State) (x : Int), s.build.wellFormed = true → s.build.STRUCT = .IIR_CASCADE → Fits s.build s.S.filter →
    InSampleRange x → exec (.proc x) s = .next t → t.S.filter = s.S.filter → t.S.SAT = false →
    ∀ (i : Nat) (c : SectionState), s.S.filter.SEC[i]? = some c →
      -(2 ^ 13) ≤ c.SX1.toInt * (s.build.b0 i + s.build.b1 i + s.build.b2 i)
          - c.SY1.toInt * (2 ^ 14 + (s.build.a1 i + s.build.a2 i)) ∧
      c.SX1.toInt * (s.build.b0 i + s.build.b1 i + s.build.b2 i)
          - c.SY1.toInt * (2 ^ 14 + (s.build.a1 i + s.build.a2 i)) < 2 ^ 13

/-! ### Host programs -/

/-- R80: what each line of a host program assembles to; an immediate out of its range is an error, not truncated. That a
`.word` of 2^32 or more is an error too is the model's choice (log 20). -/
def Obligations.AssemblerLines : Prop :=
  Line.events .nop = some [.command 0x00000000#32] ∧ Line.events .status = some [.command 0x10000000#32] ∧
  Line.events .ack = some [.command 0x20000000#32] ∧ Line.events .clrst = some [.command 0x50000000#32] ∧
  Line.events .info = some [.command 0x60000000#32] ∧ Line.events .tick = some [.tick] ∧
  (∀ i : Int, Line.events (.proc (.dec i)) =
    if InSampleRange i then some [.command (0x30000000#32 ||| (BitVec.ofInt 16 i).setWidth 32)] else none) ∧
  (∀ p : Nat, Line.events (.proc (.hex p)) =
    if p ≤ 0xFFFF then some [.command (0x30000000#32 ||| BitVec.ofNat 32 p)] else none) ∧
  (∀ i : Int, Line.events (.procraw (.dec i)) =
    if 0 ≤ i ∧ i ≤ 4095 then some [.command (0x40000000#32 ||| BitVec.ofInt 32 i)] else none) ∧
  (∀ p : Nat, Line.events (.procraw (.hex p)) =
    if p ≤ 4095 then some [.command (0x40000000#32 ||| BitVec.ofNat 32 p)] else none) ∧
  (∀ w : Nat, Line.events (.word w) = if w < 2 ^ 32 then some [.command (BitVec.ofNat 32 w)] else none)

/-- R81: the pseudo-instructions expand to ACK and then the filter command, and `poll` to STATUS. -/
def Obligations.PseudoInstructionExpansions : Prop :=
  (∀ imm : Imm, Line.events (.svc imm) =
    match Line.events .ack, Line.events (.procraw imm) with | some a, some p => some (a ++ p) | _, _ => none) ∧
  (∀ imm : Imm, Line.events (.svcq imm) =
    match Line.events .ack, Line.events (.proc imm) with | some a, some p => some (a ++ p) | _, _ => none) ∧
  Line.events .poll = Line.events .status
end

