-- ==== Sys2Proof/Laws/Arith.lean ====
section
/-! SUPPORT. Words and integers, clamping and rounding, exact sums, and shifting a history. -/

namespace Sys2Proof.Machine

open Sys2Proof.Safety

/-- A sample in range survives being written as a 16-bit word and read back (R9). -/
theorem toInt_bits16 {x : Int} (h : InSampleRange x) : (bits 16 x).toInt = x := by
  unfold bits
  rw [BitVec.toInt_ofInt]
  obtain ⟨h1, h2⟩ := h
  simp only [Int.bmod_def]
  omega

/-- A sample or a raw code survives being written as a response word and read back (R71). -/
theorem toInt_bits32 {x : Int} (h1 : -32768 ≤ x) (h2 : x ≤ 32767) : (bits 32 x).toInt = x := by
  unfold bits
  rw [BitVec.toInt_ofInt]
  simp only [Int.bmod_def]
  omega

theorem sample_toInt_inRange (w : Sample) : InSampleRange w.toInt := by
  have h1 := BitVec.toInt_lt (x := w)
  have h2 := BitVec.le_toInt (x := w)
  constructor <;> simp at h1 h2 <;> omega

theorem coef_range (b : Build) (i : Nat) : -131072 ≤ b.C i ∧ b.C i ≤ 131071 := by
  have h1 := BitVec.toInt_lt (x := b.COEF.getD i 0)
  have h2 := BitVec.le_toInt (x := b.COEF.getD i 0)
  unfold Build.C
  constructor <;> simp at h1 h2 ⊢ <;> omega

theorem clamp_range {v lo hi : Int} (h : lo ≤ hi) : lo ≤ clamp v lo hi ∧ clamp v lo hi ≤ hi := by
  unfold clamp; omega

theorem SAT16_eq (v : Int) : SAT16 v = max (-32768) (min v 32767) := by unfold SAT16 clamp; omega

theorem SAT16_of_inRange {v : Int} (h : InSampleRange v) : SAT16 v = v := by
  obtain ⟨_, _⟩ := h; unfold SAT16 clamp; omega

theorem saturates_eq (v : Int) : saturates v = decide (v < -32768 ∨ 32767 < v) := by
  unfold saturates; by_cases h1 : v < -32768 <;> by_cases h2 : 32767 < v <;> simp [h1, h2]

theorem saturates_eq_false {v : Int} : saturates v = false ↔ InSampleRange v := by
  rw [saturates_eq]; simp only [decide_eq_false_iff_not, InSampleRange]; omega

theorem RND14_eq (a : Int) : RND14 a = (a + 8192) / 16384 := by unfold RND14; norm_num

theorem QUANT_inRange (a : Int) : InSampleRange (QUANT a).value := by
  show InSampleRange (SAT16 (RND14 a)); exact clamp_range (by decide)

theorem QUANT_value (a : Int) : (QUANT a).value = max (-32768) (min ((a + 8192) / 16384) 32767) := by
  show SAT16 (RND14 a) = _; rw [SAT16_eq, RND14_eq]

theorem QUANT_saturated (a : Int) :
    (QUANT a).saturated = decide ((a + 8192) / 16384 < -32768 ∨ 32767 < (a + 8192) / 16384) := by
  show saturates (RND14 a) = _; rw [saturates_eq, RND14_eq]

/-- A sample times 1.0 (`0x4000`) quantises to itself. -/
theorem QUANT_unit {x : Int} (h : InSampleRange x) : QUANT (0x4000 * x) = ⟨x, false⟩ := by
  have hr : RND14 (0x4000 * x) = x := by rw [RND14_eq]; omega
  show (⟨SAT16 _, saturates _⟩ : Quantised) = _
  rw [hr, SAT16_of_inRange h, saturates_eq_false.mpr h]

theorem DENORM_range (y : Int) : 0 ≤ (DENORM y).value ∧ (DENORM y).value ≤ 4095 := clamp_range (by decide)

theorem NORM_inRange {raw : Nat} (h : raw ≤ 4095) : InSampleRange (NORM raw) := by
  unfold NORM; constructor <;> omega

/-- The exact sum is the sum over the index range. -/
theorem sumTo_eq_sum (n : Nat) (f : Nat → Int) : sumTo n f = ∑ k ∈ Finset.range n, f k := by
  induction n with
  | zero => rfl
  | succ n ih => rw [Finset.sum_range_succ, ← ih]; rfl

theorem sumTo_congr {n : Nat} {f g : Nat → Int} (h : ∀ k < n, f k = g k) : sumTo n f = sumTo n g := by
  induction n with
  | zero => rfl
  | succ n ih =>
    show sumTo n f + f n = sumTo n g + g n
    rw [ih fun k hk => h k (by omega), h n (by omega)]

/-- A sum of terms bounded by `M` is bounded by the number of terms times `M`. -/
theorem abs_sumTo_le {n : Nat} {f : Nat → Int} {M : Int} (h : ∀ k < n, |f k| ≤ M) : |sumTo n f| ≤ n * M := by
  induction n with
  | zero => simp [sumTo]
  | succ n ih =>
    have h1 := ih fun k hk => h k (by omega)
    have h2 := h n (by omega)
    calc |sumTo n f + f n| ≤ |sumTo n f| + |f n| := abs_add_le _ _
      _ ≤ n * M + M := by omega
      _ = ((n + 1 : Nat) : Int) * M := by push_cast; ring

/-- A product of a coefficient and a sample is at most `2^32` in magnitude (R120). -/
theorem abs_coef_mul_le (b : Build) (i : Nat) {v : Int} (h : InSampleRange v) : |b.C i * v| ≤ 2 ^ 32 := by
  obtain ⟨h1, h2⟩ := coef_range b i
  obtain ⟨h3, h4⟩ := h
  rw [abs_mul]
  have ha : |b.C i| ≤ 131072 := abs_le.mpr ⟨by omega, by omega⟩
  have hb : |v| ≤ 32768 := abs_le.mpr ⟨by omega, by omega⟩
  calc |b.C i| * |v| ≤ 131072 * 32768 := mul_le_mul ha hb (abs_nonneg _) (by norm_num)
    _ = 2 ^ 32 := by norm_num

@[simp] theorem shiftIn_length (w : Sample) (l : List Sample) : (shiftIn w l).length = l.length := by
  simp [shiftIn]

theorem shiftIn_getD_zero (w : Sample) {l : List Sample} (h : 0 < l.length) : (shiftIn w l).getD 0 0 = w := by
  cases l with
  | nil => simp at h
  | cons a l => simp [shiftIn, List.dropLast]

theorem shiftIn_getD_succ (w : Sample) {l : List Sample} {k : Nat} (h : k + 1 < l.length) :
    (shiftIn w l).getD (k + 1) 0 = l.getD k 0 := by
  simp only [shiftIn, List.getD_eq_getElem?_getD, List.getElem?_dropLast, List.length_cons]
  rw [if_pos (by omega)]
  simp

end Sys2Proof.Machine
end

