-- ==== Sys2Proof/Laws/Filter.lean ====
section
/-! SUPPORT. What one filter step can do, for each structure: its output is in range, the histories keep their lengths, and the
fields of the other structures are untouched. -/

namespace Sys2Proof.Machine

open Sys2Proof.Safety

theorem runSections_length (b : Build) (s : Nat) (v : Int) (cs : List SectionState) :
    (runSections b s v cs).sections.length = cs.length := by
  induction cs generalizing s v with
  | nil => rfl
  | cons c cs ih => simp [runSections, ih]

theorem runSections_inRange (b : Build) (s : Nat) {v : Int} (cs : List SectionState) (h : InSampleRange v) :
    InSampleRange (runSections b s v cs).y := by
  induction cs generalizing s v with
  | nil => exact h
  | cons c cs ih => exact ih (s + 1) (QUANT_inRange _)

/-- The output of a filter step on a sample is a sample (R126), on every build. -/
theorem FILTER_STEP_inRange (b : Build) (f : FilterState) {x : Int} (h : InSampleRange x) :
    InSampleRange (FILTER_STEP b f x).y := by
  unfold FILTER_STEP
  split
  · exact QUANT_inRange _
  · exact QUANT_inRange _
  · exact runSections_inRange b 0 f.SEC h

/-- A filter step keeps the length of every history, so it keeps the shape of the filter state. -/
theorem FILTER_STEP_lengths (b : Build) (f : FilterState) (x : Int) :
    (FILTER_STEP b f x).filter.H.length = f.H.length ∧ (FILTER_STEP b f x).filter.XH.length = f.XH.length ∧
    (FILTER_STEP b f x).filter.YH.length = f.YH.length ∧ (FILTER_STEP b f x).filter.SEC.length = f.SEC.length := by
  unfold FILTER_STEP
  split
  · exact ⟨shiftIn_length _ _, rfl, rfl, rfl⟩
  · exact ⟨rfl, shiftIn_length _ _, shiftIn_length _ _, rfl⟩
  · exact ⟨rfl, rfl, rfl, runSections_length b 0 x f.SEC⟩

theorem FILTER_STEP_fits {b : Build} {f : FilterState} (x : Int) (h : Fits b f) :
    Fits b (FILTER_STEP b f x).filter := by
  obtain ⟨h1, h2, h3, h4⟩ := FILTER_STEP_lengths b f x
  unfold Fits at *
  rw [h1, h2, h3, h4]
  exact h

/-- A filter step writes only the words of the build's own structure. -/
theorem FILTER_STEP_frame (b : Build) (f : FilterState) (x : Int) :
    (b.STRUCT ≠ .FIR → (FILTER_STEP b f x).filter.H = f.H) ∧
    (b.STRUCT ≠ .IIR_DIRECT → (FILTER_STEP b f x).filter.XH = f.XH ∧ (FILTER_STEP b f x).filter.YH = f.YH) ∧
    (b.STRUCT ≠ .IIR_CASCADE → (FILTER_STEP b f x).filter.SEC = f.SEC) := by
  unfold FILTER_STEP
  split <;> rename_i hs <;> simp [hs, FIR_STEP, DF_STEP, CAS_STEP]

/-- Every filter state made from words has exactly the words of the build's structure. -/
theorem ofWords_fits (b : Build) (g : Nat → Sample) : Fits b (FilterState.ofWords b g) := by
  unfold Fits FilterState.ofWords
  cases hs : b.STRUCT <;> simp

theorem zero_allZero (b : Build) : AllZero (FilterState.zero b) := by
  unfold AllZero FilterState.zero FilterState.ofWords
  cases hs : b.STRUCT <;> simp

end Sys2Proof.Machine
end

