-- ==== Sys2Proof/Laws/State.lean ====
section
/-! SUPPORT. One lemma per field and update of State and of S, true by rfl. -/

namespace Sys2Proof.Machine

@[simp] theorem withS_build (s : State) (S : Engine) : (s.withS S).build = s.build := rfl
@[simp] theorem withS_phase (s : State) (S : Engine) : (s.withS S).phase = s.phase := rfl
@[simp] theorem withS_S (s : State) (S : Engine) : (s.withS S).S = S := rfl
@[simp] theorem withS_rsp (s : State) (S : Engine) : (s.withS S).rsp = s.rsp := rfl
@[simp] theorem withS_commands (s : State) (S : Engine) : (s.withS S).commands = s.commands := rfl
@[simp] theorem withS_schedule (s : State) (S : Engine) : (s.withS S).schedule = s.schedule := rfl
@[simp] theorem withS_responses (s : State) (S : Engine) : (s.withS S).responses = s.responses := rfl
@[simp] theorem withS_choices (s : State) (S : Engine) : (s.withS S).choices = s.choices := rfl

@[simp] theorem respond_build (s : State) (w : Word) : (s.respond w).build = s.build := rfl
@[simp] theorem respond_phase (s : State) (w : Word) : (s.respond w).phase = s.phase := rfl
@[simp] theorem respond_S (s : State) (w : Word) : (s.respond w).S = s.S := rfl
@[simp] theorem respond_rsp (s : State) (w : Word) : (s.respond w).rsp = some w := rfl
@[simp] theorem respond_commands (s : State) (w : Word) : (s.respond w).commands = s.commands := rfl
@[simp] theorem respond_schedule (s : State) (w : Word) : (s.respond w).schedule = s.schedule := rfl
@[simp] theorem respond_responses (s : State) (w : Word) : (s.respond w).responses = s.responses := rfl
@[simp] theorem respond_choices (s : State) (w : Word) : (s.respond w).choices = s.choices := rfl

@[simp] theorem tick_build (s : State) : s.tick.build = s.build := rfl
@[simp] theorem tick_phase (s : State) : s.tick.phase = s.phase := rfl
@[simp] theorem tick_S (s : State) : s.tick.S = TICK s.S := rfl
@[simp] theorem tick_rsp (s : State) : s.tick.rsp = s.rsp := rfl
@[simp] theorem tick_commands (s : State) : s.tick.commands = s.commands := rfl
@[simp] theorem tick_schedule (s : State) : s.tick.schedule = s.schedule := rfl
@[simp] theorem tick_responses (s : State) : s.tick.responses = s.responses := rfl
@[simp] theorem tick_choices (s : State) : s.tick.choices = s.choices := rfl

@[simp] theorem commitFilter_READY (S : Engine) (f : FilterState) (b : Bool) : (commitFilter S f b).READY = S.READY := rfl
@[simp] theorem commitFilter_OVR_CNT (S : Engine) (f : FilterState) (b : Bool) :
    (commitFilter S f b).OVR_CNT = S.OVR_CNT := rfl
@[simp] theorem commitFilter_ERR (S : Engine) (f : FilterState) (b : Bool) : (commitFilter S f b).ERR = S.ERR := rfl
@[simp] theorem commitFilter_SAT (S : Engine) (f : FilterState) (b : Bool) :
    (commitFilter S f b).SAT = (S.SAT || b) := rfl
@[simp] theorem commitFilter_filter (S : Engine) (f : FilterState) (b : Bool) : (commitFilter S f b).filter = f := rfl

/-- A TICK sets `READY` whatever it was (R23, R58: the flag is set-dominant). -/
@[simp] theorem TICK_READY (S : Engine) : (TICK S).READY = true := by
  unfold TICK; split <;> simp_all

@[simp] theorem TICK_ERR (S : Engine) : (TICK S).ERR = S.ERR := by unfold TICK; split <;> rfl
@[simp] theorem TICK_SAT (S : Engine) : (TICK S).SAT = S.SAT := by unfold TICK; split <;> rfl
@[simp] theorem TICK_filter (S : Engine) : (TICK S).filter = S.filter := by unfold TICK; split <;> rfl

@[simp] theorem TICK_OVR_CNT (S : Engine) :
    (TICK S).OVR_CNT = if S.READY then overrunCount S.OVR_CNT else S.OVR_CNT := by
  unfold TICK; split <;> simp_all

end Sys2Proof.Machine
end

