-- ==== Sys2Proof/Laws/Commands.lean ====
section
/-! SUPPORT. What one command can do: it always answers a next state, it sets the response, and it changes `S` only as R63
says. -/

namespace Sys2Proof.Machine

open Sys2Proof.Safety

/-- The engine state a command leaves. -/
def effectOn (b : Build) (i : Instr) (S : Engine) : Engine :=
  match i with
  | .nop | .status | .info => S
  | .ack => { S with READY := false }
  | .clrst => { S with ERR := false, SAT := false, OVR_CNT := 0 }
  | .proc x => commitFilter S (FILTER_STEP b S.filter x).filter (FILTER_STEP b S.filter x).saturated
  | .procraw raw =>
    commitFilter S (FILTER_STEP b S.filter (NORM raw)).filter
      ((FILTER_STEP b S.filter (NORM raw)).saturated || (DENORM (FILTER_STEP b S.filter (NORM raw)).y).saturated)

/-- The response of a command. -/
def responseOf (b : Build) (i : Instr) (S : Engine) : Word :=
  match i with
  | .nop => 0
  | .status | .ack | .clrst => STATUS_WORD S
  | .info => b.INFO_WORD
  | .proc x => bits 32 (FILTER_STEP b S.filter x).y
  | .procraw raw => bits 32 (DENORM (FILTER_STEP b S.filter (NORM raw)).y).value

/-- Every command answers a next state, which differs only in `S` and the response: no command faults or is refused (R200). -/
theorem exec_eq (i : Instr) (s : State) :
    exec i s = .next { s with S := effectOn s.build i s.S, rsp := some (responseOf s.build i s.S) } := by
  cases i <;> rfl

theorem effectOn_fits {b : Build} (i : Instr) {S : Engine} (h : Fits b S.filter) : Fits b (effectOn b i S).filter := by
  cases i with
  | proc x => exact FILTER_STEP_fits x h
  | procraw raw => exact FILTER_STEP_fits (NORM raw) h
  | nop | status | ack | clrst | info => exact h

/-- The engine state after one accepted word: its command's, or `ERR` set for an illegal word. -/
def wordEffect (b : Build) (w : Word) (S : Engine) : Engine :=
  match decode w with
  | .instr i => effectOn b i S
  | .illegal _ => { S with ERR := true }

/-- The response to one accepted word. -/
def wordResponse (b : Build) (w : Word) (S : Engine) : Word :=
  match decode w with
  | .instr i => responseOf b i S
  | .illegal _ => 0

theorem wordEffect_fits {b : Build} (w : Word) {S : Engine} (h : Fits b S.filter) : Fits b (wordEffect b w S).filter := by
  unfold wordEffect
  split
  · exact effectOn_fits _ h
  · exact h

end Sys2Proof.Machine
end

