-- ==== Sys2Proof/Laws/Encoding.lean ====
section
/-! SUPPORT. The decoder by numbers: which row of the opcode table a word matches, and what each decoded word is. -/

namespace Sys2Proof

open Sys2Proof.Machine Sys2Proof.Safety

/-- Masking off the low `n` bits rounds the word down to a multiple of `2^n`. -/
theorem toNat_and_high (w : Word) (n : Nat) (m : Word) (hm : m = BitVec.allOnes 32 <<< n) :
    (w &&& m).toNat = w.toNat / 2 ^ n * 2 ^ n := by
  have hle : w.toNat / 2 ^ n * 2 ^ n ≤ w.toNat := Nat.div_mul_le_self _ _
  rw [hm, ← BitVec.shiftLeft_ushiftRight, BitVec.toNat_shiftLeft, BitVec.toNat_ushiftRight, Nat.shiftRight_eq_div_pow,
    Nat.shiftLeft_eq, Nat.mod_eq_of_lt (by omega)]

theorem and_eq_iff_high16 (w p : Word) : w &&& 0xFFFF0000#32 = p ↔ w.toNat / 2 ^ 16 * 2 ^ 16 = p.toNat := by
  rw [← toNat_and_high w 16 0xFFFF0000#32 (by decide), BitVec.toNat_inj]

theorem and_eq_iff_high20 (w p : Word) : w &&& 0xFFFFF000#32 = p ↔ w.toNat / 2 ^ 12 * 2 ^ 12 = p.toNat := by
  rw [← toNat_and_high w 12 0xFFFFF000#32 (by decide), BitVec.toNat_inj]

theorem and_eq_iff_all (w p : Word) : w &&& 0xFFFFFFFF#32 = p ↔ w.toNat = p.toNat := by
  rw [show (0xFFFFFFFF#32) = BitVec.allOnes 32 by decide, BitVec.and_allOnes, BitVec.toNat_inj]

/-- The rows of the table, by the number the word is. -/
theorem encodes_iff (w : Word) :
    ((⟨.NOP, 0x00000000#32, 0xFFFFFFFF#32⟩ : OpcodeRow).encodes w = true ↔ w.toNat = 0) ∧
    ((⟨.STATUS, 0x10000000#32, 0xFFFFFFFF#32⟩ : OpcodeRow).encodes w = true ↔ w.toNat = 0x10000000) ∧
    ((⟨.ACK, 0x20000000#32, 0xFFFFFFFF#32⟩ : OpcodeRow).encodes w = true ↔ w.toNat = 0x20000000) ∧
    ((⟨.PROC, 0x30000000#32, 0xFFFF0000#32⟩ : OpcodeRow).encodes w = true ↔ w.toNat / 2 ^ 16 = 0x3000) ∧
    ((⟨.PROCRAW, 0x40000000#32, 0xFFFFF000#32⟩ : OpcodeRow).encodes w = true ↔ w.toNat / 2 ^ 12 = 0x40000) ∧
    ((⟨.CLRST, 0x50000000#32, 0xFFFFFFFF#32⟩ : OpcodeRow).encodes w = true ↔ w.toNat = 0x50000000) ∧
    ((⟨.INFO, 0x60000000#32, 0xFFFFFFFF#32⟩ : OpcodeRow).encodes w = true ↔ w.toNat = 0x60000000) := by
  simp only [OpcodeRow.encodes, beq_iff_eq, and_eq_iff_all, and_eq_iff_high16, and_eq_iff_high20]
  refine ⟨?_, ?_, ?_, ?_, ?_, ?_, ?_⟩ <;> simp only [BitVec.toNat_ofNat] <;> norm_num <;> omega

/-- Decoding, by the number the word is: the one lemma the encoding proofs cite. -/
theorem decode_eq (w : Word) :
    decode w =
      if w.toNat = 0 then .instr .nop
      else if w.toNat = 0x10000000 then .instr .status
      else if w.toNat = 0x20000000 then .instr .ack
      else if w.toNat / 2 ^ 16 = 0x3000 then .instr (.proc (dataField w).toInt)
      else if w.toNat / 2 ^ 12 = 0x40000 then .instr (.procraw (w.toNat % 2 ^ 12))
      else if w.toNat = 0x50000000 then .instr .clrst
      else if w.toNat = 0x60000000 then .instr .info
      else .illegal (illegalCause w) := by
  obtain ⟨h1, h2, h3, h4, h5, h6, h7⟩ := encodes_iff w
  have key : ∀ (r : OpcodeRow) (P : Prop) [Decidable P] (rs : List OpcodeRow), (r.encodes w = true ↔ P) →
      decodedBy w ((r :: rs).find? fun r => r.encodes w) =
        if P then .instr (assemble r.mnemonic w) else decodedBy w (rs.find? fun r => r.encodes w) := by
    intro r P _ rs h
    by_cases hP : P
    · rw [if_pos hP, List.find?_cons_of_pos (p := fun r : OpcodeRow => r.encodes w) (h.mpr hP)]
      rfl
    · rw [if_neg hP, List.find?_cons_of_neg (p := fun r : OpcodeRow => r.encodes w) (fun hr => hP (h.mp hr))]
  unfold decode opcodeRows
  rw [key _ _ _ h1, key _ _ _ h2, key _ _ _ h3, key _ _ _ h4, key _ _ _ h5, key _ _ _ h6, key _ _ _ h7]
  have hraw : (rawField w).toNat = w.toNat % 2 ^ 12 := by simp [rawField]
  simp only [assemble, hraw, List.find?_nil, decodedBy]

end Sys2Proof
end

