-- ==== Sys2Proof/Laws/Events.lean ====
section
/-! SUPPORT. What one event and one step can do, said once. -/

namespace Sys2Proof.Machine

open Sys2Proof.Safety

/-- An accepted word always answers a next state, which differs only in `S` and the response. -/
theorem runCommand_eq (w : Word) (s : State) :
    runCommand w s = .next { s with S := wordEffect s.build w s.S, rsp := some (wordResponse s.build w s.S) } := by
  unfold runCommand wordEffect wordResponse
  cases decode w with
  | instr i => exact exec_eq i s
  | illegal c => rfl

/-- The state after the host's turn on the command port. -/
def State.issued (s : State) : State :=
  match s.rsp, s.commands with
  | none, w :: ws =>
    { s with commands := ws, S := wordEffect s.build w s.S, rsp := some (wordResponse s.build w s.S) }
  | _, _ => s

theorem issueCommand_eq (s : State) : issueCommand s = .next s.issued := by
  unfold issueCommand State.issued
  cases s.rsp with
  | some r => rfl
  | none =>
    cases s.commands with
    | nil => rfl
    | cons w ws => exact runCommand_eq w { s with commands := ws }

theorem issueThenTick_eq (s : State) : issueThenTick s = .next s.issued.tick := by
  unfold issueThenTick; rw [issueCommand_eq]

/-- The state after an event that takes effect while running. -/
def State.after (e : Event) (s : State) : State :=
  match e with
  | .issue => s.issued
  | .take => s.deliver
  | .tick => s.tick
  | .issueTick => s.issued.tick
  | .closeEdge => s.closeEdge
  | .resetAssert => s.enterReset
  | .resetRelease => s.leaveReset
  | .powerCycle => s.powerLoss

/-- The events of reset and power, which take effect in every phase. -/
def Event.isReset : Event → Bool
  | .resetAssert | .resetRelease | .powerCycle => true
  | .issue | .take | .tick | .issueTick | .closeEdge => false

/-- Everything an event can do: reset and power take effect in every phase, the others only while running; in reset they have
no effect, before the first reset they are refused. -/
theorem applyEvent_eq (e : Event) (s : State) :
    applyEvent e s =
      if e.isReset then .next (s.after e)
      else
        match s.phase with
        | .beforeReset => .refused .beforeFirstReset
        | .inReset => .next s
        | .running => .next (s.after e) := by
  cases e <;> simp only [applyEvent, whenRunning, Event.isReset, State.after, if_true, if_false, Bool.false_eq_true] <;>
    cases s.phase <;> simp [issueCommand_eq, issueThenTick_eq]

/-- Everything a step that answers a next state can do: nothing (no event left, or an event without effect in reset), or the
effect of the next event. -/
theorem step_cases {s t : State} (h : step s = .next t) :
    s.build.wellFormed = true ∧
    ((s.schedule = [] ∧ t = s) ∨
      ∃ e es, s.schedule = e :: es ∧
        ((e.isReset = true ∧ t = State.after e { s with schedule := es }) ∨
          (e.isReset = false ∧ s.phase = .inReset ∧ t = { s with schedule := es }) ∨
          (e.isReset = false ∧ s.phase = .running ∧ t = State.after e { s with schedule := es }))) := by
  unfold step at h
  split at h
  · rename_i hb
    refine ⟨hb, ?_⟩
    split at h
    · rename_i hs
      cases h
      exact .inl ⟨hs, rfl⟩
    · rename_i e es hs
      rw [applyEvent_eq] at h
      refine .inr ⟨e, es, hs, ?_⟩
      split at h
      · rename_i he
        cases h
        exact .inl ⟨he, rfl⟩
      · rename_i he
        have he' : e.isReset = false := by simpa using he
        cases hp : s.phase <;> rw [show ({ s with schedule := es } : State).phase = s.phase from rfl, hp] at h <;> cases h
        · exact .inr (.inl ⟨he', rfl, rfl⟩)
        · exact .inr (.inr ⟨he', rfl, rfl⟩)
  · cases h

/-- A step on a given event. -/
theorem step_eq {s : State} {e : Event} {es : List Event} (hb : s.build.wellFormed = true) (hs : s.schedule = e :: es) :
    step s = applyEvent e { s with schedule := es } := by
  unfold step; rw [if_pos hb, hs]

/-- The state made for a word runs exactly that word, then goes on as `s` would (log 14). -/
theorem step_withFetchWord {s : State} (hb : s.build.wellFormed = true) (nbits w : Nat) :
    step (s.withFetchWord nbits w) =
      runCommand (BitVec.ofNat 32 (w % 2 ^ nbits)) { s with phase := .running, rsp := none } := by
  rw [step_eq (s := s.withFetchWord nbits w) hb rfl]
  rfl

@[simp] theorem issued_build (s : State) : s.issued.build = s.build := by unfold State.issued; split <;> rfl
@[simp] theorem issued_phase (s : State) : s.issued.phase = s.phase := by unfold State.issued; split <;> rfl
@[simp] theorem issued_schedule (s : State) : s.issued.schedule = s.schedule := by unfold State.issued; split <;> rfl
@[simp] theorem issued_responses (s : State) : s.issued.responses = s.responses := by unfold State.issued; split <;> rfl
@[simp] theorem issued_choices (s : State) : s.issued.choices = s.choices := by unfold State.issued; split <;> rfl

theorem issued_accept {s : State} {w : Word} {ws : List Word} (hr : s.rsp = none) (hc : s.commands = w :: ws) :
    s.issued = { s with commands := ws, S := wordEffect s.build w s.S, rsp := some (wordResponse s.build w s.S) } := by
  unfold State.issued; simp only [hr, hc]

theorem issued_stalled {s : State} (h : s.rsp ≠ none ∨ s.commands = []) : s.issued = s := by
  unfold State.issued
  split
  · rename_i hr hc; simp_all
  · rfl

@[simp] theorem deliver_build (s : State) : s.deliver.build = s.build := by unfold State.deliver; split <;> rfl
@[simp] theorem deliver_phase (s : State) : s.deliver.phase = s.phase := by unfold State.deliver; split <;> rfl
@[simp] theorem deliver_S (s : State) : s.deliver.S = s.S := by unfold State.deliver; split <;> rfl
@[simp] theorem deliver_schedule (s : State) : s.deliver.schedule = s.schedule := by unfold State.deliver; split <;> rfl
@[simp] theorem deliver_commands (s : State) : s.deliver.commands = s.commands := by unfold State.deliver; split <;> rfl

@[simp] theorem closeEdge_build (s : State) : s.closeEdge.build = s.build := by unfold State.closeEdge; split <;> rfl
@[simp] theorem closeEdge_phase (s : State) : s.closeEdge.phase = s.phase := by unfold State.closeEdge; split <;> rfl
@[simp] theorem closeEdge_schedule (s : State) : s.closeEdge.schedule = s.schedule := by
  unfold State.closeEdge; split <;> rfl
@[simp] theorem closeEdge_rsp (s : State) : s.closeEdge.rsp = s.rsp := by unfold State.closeEdge; split <;> rfl
@[simp] theorem closeEdge_commands (s : State) : s.closeEdge.commands = s.commands := by
  unfold State.closeEdge; split <;> rfl
@[simp] theorem closeEdge_responses (s : State) : s.closeEdge.responses = s.responses := by
  unfold State.closeEdge; split <;> rfl

/-- A close edge is one TICK or none (R64). -/
theorem closeEdge_S (s : State) : s.closeEdge.S = s.S ∨ s.closeEdge.S = TICK s.S := by
  unfold State.closeEdge
  split
  · exact .inl rfl
  · exact .inr rfl

@[simp] theorem after_build (e : Event) (s : State) : (s.after e).build = s.build := by
  cases e <;> simp only [State.after, issued_build, deliver_build, tick_build, closeEdge_build]
  · rfl
  · unfold State.leaveReset; split <;> rfl
  · rfl

theorem step_build {s t : State} (h : step s = .next t) : t.build = s.build := by
  obtain ⟨_, ⟨_, rfl⟩ | ⟨e, es, _, ⟨_, rfl⟩ | ⟨_, _, rfl⟩ | ⟨_, _, rfl⟩⟩⟩ := step_cases h <;> simp

end Sys2Proof.Machine
end

