-- ==== Sys2Proof/Laws/Flags.lean ====
section
/-! SUPPORT. The STATUS and INFO words as numbers, and the overrun count as a number. -/

namespace Sys2Proof.Machine

theorem ofBool_toNat (b : Bool) : (BitVec.ofBool b).toNat = b.toNat := by cases b <;> rfl

theorem toNat_append4 (a : BitVec 16) (x y z : BitVec 1) :
    (a ++ 0#13 ++ x ++ y ++ z : BitVec 32).toNat = a.toNat * 65536 + x.toNat * 4 + y.toNat * 2 + z.toNat := by
  have h1 := x.isLt
  have h2 := y.isLt
  have h3 := z.isLt
  rw [BitVec.toNat_append, BitVec.toNat_append, BitVec.toNat_append, BitVec.toNat_append,
    ← Nat.shiftLeft_add_eq_or_of_lt h3, ← Nat.shiftLeft_add_eq_or_of_lt h2, ← Nat.shiftLeft_add_eq_or_of_lt h1,
    ← Nat.shiftLeft_add_eq_or_of_lt (by simp)]
  simp only [Nat.shiftLeft_eq, BitVec.toNat_ofNat]
  omega

/-- The STATUS word as a number (R27). -/
theorem STATUS_WORD_toNat (S : Engine) :
    (STATUS_WORD S).toNat = S.OVR_CNT.toNat * 65536 + S.SAT.toNat * 4 + S.ERR.toNat * 2 + S.READY.toNat := by
  rw [← ofBool_toNat, ← ofBool_toNat, ← ofBool_toNat]
  exact toNat_append4 S.OVR_CNT (BitVec.ofBool S.SAT) (BitVec.ofBool S.ERR) (BitVec.ofBool S.READY)

theorem toNat_append3 (a : BitVec 8) (c : BitVec 4) :
    (0#16 ++ 1#4 ++ a ++ c : BitVec 32).toNat = 0x1000 + a.toNat * 16 + c.toNat := by
  have h1 := a.isLt
  have h2 := c.isLt
  rw [BitVec.toNat_append, BitVec.toNat_append, BitVec.toNat_append, ← Nat.shiftLeft_add_eq_or_of_lt h2,
    ← Nat.shiftLeft_add_eq_or_of_lt h1, ← Nat.shiftLeft_add_eq_or_of_lt (by simp)]
  simp only [Nat.shiftLeft_eq, BitVec.toNat_ofNat]
  omega

/-- The INFO word as a number (R28). -/
theorem INFO_WORD_toNat (b : Build) :
    b.INFO_WORD.toNat = 0x1000 + b.LEN % 256 * 16 + b.STRUCT.code % 16 := by
  have h := toNat_append3 (BitVec.ofNat 8 b.LEN) (BitVec.ofNat 4 b.STRUCT.code)
  rw [BitVec.toNat_ofNat, BitVec.toNat_ofNat] at h
  exact h

theorem overrunCount_toNat (c : Counter) : (overrunCount c).toNat = min (c.toNat + 1) 0xFFFF := by
  unfold overrunCount
  rw [BitVec.toNat_ofNat]
  omega

end Sys2Proof.Machine
end

