-- ==== Sys2Proof/Laws/PerInstr.lean ====
section
/-! SUPPORT. What the word of every command looks like, one lemma per command: its three fields (R70), as R72 to R75 give
them. -/

namespace Sys2Proof.Laws.Fields

/-- The `OPC` of a command (R72). -/
def opcode : Instr → Nat
  | .nop => 0x0
  | .status => 0x1
  | .ack => 0x2
  | .proc _ => 0x3
  | .procraw _ => 0x4
  | .clrst => 0x5
  | .info => 0x6

/-- The `DATA` of a command: its operand, or zero (R73, R74, R75). -/
def data : Instr → BitVec 16
  | .nop => 0
  | .status => 0
  | .ack => 0
  | .proc x => BitVec.ofInt 16 x
  | .procraw raw => BitVec.ofNat 16 raw
  | .clrst => 0
  | .info => 0

/-- The word of a well-formed command has its opcode in `OPC`, zero in `RSV`, its operand in `DATA`. -/
def Statement (i : Instr) : Prop :=
  i.wellFormed = true → (opcField (encode i)).toNat = opcode i ∧ rsvField (encode i) = 0#12 ∧ dataField (encode i) = data i

theorem nop : Statement .nop := by intro _; decide

theorem status : Statement .status := by intro _; decide

theorem ack : Statement .ack := by intro _; decide

/-- The three fields of an opcode word with a 16-bit operand in its low half. -/
theorem fields_or (n : Nat) (hn : n < 16) (w : Word) (hw : w.toNat < 2 ^ 16) :
    (opcField (BitVec.ofNat 32 (2 ^ 28 * n) ||| w)).toNat = n ∧ rsvField (BitVec.ofNat 32 (2 ^ 28 * n) ||| w) = 0#12 ∧
    (dataField (BitVec.ofNat 32 (2 ^ 28 * n) ||| w)).toNat = w.toNat := by
  have h : (BitVec.ofNat 32 (2 ^ 28 * n) ||| w).toNat = 2 ^ 28 * n + w.toNat := by
    rw [BitVec.toNat_or, BitVec.toNat_ofNat, Nat.mod_eq_of_lt (by omega), Nat.two_pow_add_eq_or_of_lt (by omega)]
  unfold opcField rsvField dataField
  refine ⟨?_, BitVec.eq_of_toNat_eq ?_, ?_⟩ <;> rw [BitVec.extractLsb'_toNat, h, Nat.shiftRight_eq_div_pow]
  · omega
  · rw [BitVec.toNat_ofNat]; omega
  · omega

theorem proc (x : Int) : Statement (.proc x) := by
  intro _
  have h := (BitVec.ofInt 16 x).isLt
  obtain ⟨h1, h2, h3⟩ := fields_or 3 (by norm_num) ((BitVec.ofInt 16 x).setWidth 32) (by rw [BitVec.toNat_setWidth]; omega)
  refine ⟨h1, h2, BitVec.eq_of_toNat_eq (h3.trans ?_)⟩
  rw [BitVec.toNat_setWidth, Nat.mod_eq_of_lt (by omega)]
  rfl

theorem procraw (raw : Nat) : Statement (.procraw raw) := by
  intro h
  have h : raw ≤ 4095 := by simpa [Instr.wellFormed, procrawOperandOk] using h
  obtain ⟨h1, h2, h3⟩ := fields_or 4 (by norm_num) (BitVec.ofNat 32 raw) (by rw [BitVec.toNat_ofNat]; omega)
  refine ⟨h1, h2, BitVec.eq_of_toNat_eq (h3.trans ?_)⟩
  simp only [data, BitVec.toNat_ofNat]
  omega

theorem clrst : Statement .clrst := by intro _; decide

theorem info : Statement .info := by intro _; decide

end Sys2Proof.Laws.Fields
end

