-- ==== Sys2Proof/Laws/Runs.lean ====
section
/-! SUPPORT. Runs of many steps, one step at a time, and where a run ends (R230). -/

namespace Sys2Proof.Machine

open Sys2Proof.Safety

@[simp] theorem runSteps_zero (s : State) : runSteps 0 s = .next s := rfl

theorem runSteps_succ_of_next {s u : State} (n : Nat) (h : step s = .next u) :
    runSteps (n + 1) s = runSteps n u := by simp only [runSteps, h]

/-- A run that answers a next state did so through its first step. -/
theorem runSteps_succ_cases {n : Nat} {s t : State} (h : runSteps (n + 1) s = .next t) :
    ∃ u, step s = .next u ∧ runSteps n u = .next t := by
  simp only [runSteps] at h
  split at h
  · rename_i u hs; exact ⟨u, hs, h⟩
  · cases h
  · cases h

@[simp] theorem untilLastCommand_nil : untilLastCommand [] = [] := rfl

@[simp] theorem untilLastCommand_command (w : Word) (es : List RunEvent) :
    untilLastCommand (.command w :: es) = .command w :: untilLastCommand es := rfl

/-- A TICK stays in a run exactly when a command comes after it. -/
theorem untilLastCommand_tick (es : List RunEvent) :
    untilLastCommand (.tick :: es) = if untilLastCommand es = [] then [] else .tick :: untilLastCommand es := by
  simp only [untilLastCommand]
  cases untilLastCommand es <;> simp

end Sys2Proof.Machine
end

