-- ==== Sys2Proof/Tests/Slice0.lean ====
section
/-! SUPPORT. Tests. The expected values are those of spec/95_test_vectors.md, or hand-written words of spec/30_encoding.md;
the theorems named `witness_…` show that the hypotheses of the statements can be met, at the ends of their ranges. -/

namespace Sys2Proof.Tests

open Sys2Proof.Machine Sys2Proof.Safety

/-! ### Helpers: small builds and states -/

def fir (coef : List CoefWord) : Build := ⟨.FIR, coef.length, 0, 0, coef⟩
def direct (n : Nat) (coef : List CoefWord) : Build := ⟨.IIR_DIRECT, 0, n, 0, coef⟩
def cascade (n : Nat) (coef : List CoefWord) : Build := ⟨.IIR_CASCADE, 0, 0, n, coef⟩

/-- CFG-F4, CFG-D2, CFG-C2 and CFG-CS of 95_test_vectors.md, and CFG-F1 with gain 2.0. -/
def F4 : Build := fir [0x04000, 0x02000, 0x3F000, 0x00001]
def D2 : Build := direct 2 [0x01000, 0x02000, 0x01000, 0x3E000, 0x01000]
def C2 : Build := cascade 2 [0x02000, 0x02000, 0, 0, 0, 0x04000, 0, 0, 0x3E000, 0]
def CS : Build := cascade 2 [0x10000, 0, 0, 0, 0, 0x01000, 0, 0, 0, 0]
def F1 : Build := fir [0x08000]

/-- The state after reset of a build, with events and command words to come. -/
def start (b : Build) (es : List Event) (ws : List Word) : State :=
  { State.resetOf b with schedule := es, commands := ws }

/-- A state with other flags. -/
def flags (ready : Bool) (ovr : Counter) (err sat : Bool) (s : State) : State :=
  { s with S := { s.S with READY := ready, OVR_CNT := ovr, ERR := err, SAT := sat } }

/-- A state with another filter state. -/
def holding (f : FilterState) (s : State) : State := { s with S := { s.S with filter := f } }

/-- A state in another phase. -/
def phased (p : Phase) (s : State) : State := { s with phase := p }

/-- What a test looks at: the response, and then a view of `S`. -/
def shows {α : Type} [DecidableEq α] (o : Host.Outcome State Fault Refusal) (r : Word) (view : Engine → α) (v : α) : Bool :=
  match o with
  | .next t => t.rsp == some r && decide (view t.S = v)
  | .fault _ => false
  | .refused _ => false

/-- The four fields of the ready flag, counter and sticky flags, in the order of the tables. -/
def fourFields (S : Engine) : Bool × Nat × Bool × Bool := (S.READY, S.OVR_CNT.toNat, S.ERR, S.SAT)

/-! ### Well-formedness: each check refuses an ill-formed term -/

theorem test_wellFormed_proc_above : (Instr.proc 32768).wellFormed = false := by decide
theorem test_wellFormed_proc_below : (Instr.proc (-32769)).wellFormed = false := by decide
theorem test_wellFormed_procraw_above : (Instr.procraw 4096).wellFormed = false := by decide
theorem test_wellFormed_ends :
    (Instr.proc 32767).wellFormed = true ∧ (Instr.proc (-32768)).wellFormed = true ∧
    (Instr.procraw 4095).wellFormed = true := by decide

/-- R6, condition by condition. -/
theorem test_build_struct_refused : Build.ofParams 3 1 1 1 [0] = none := by decide
theorem test_build_length_refused :
    Build.ofParams 0 0 1 1 [] = none ∧ Build.ofParams 0 65 1 1 (List.replicate 65 0) = none ∧
    Build.ofParams 1 1 9 1 (List.replicate 19 0) = none ∧ Build.ofParams 2 1 1 9 (List.replicate 45 0) = none := by decide
theorem test_build_count_refused :
    Build.ofParams 0 2 1 1 [0] = none ∧ Build.ofParams 1 1 2 1 [0, 0, 0, 0] = none ∧
    Build.ofParams 2 1 1 1 [0, 0, 0, 0] = none := by decide
theorem test_build_coefficient_refused :
    Build.ofParams 0 1 0 0 [131072] = none ∧ Build.ofParams 0 1 0 0 [-131073] = none := by decide
theorem test_build_accepted :
    (Build.ofParams 0 1 0 0 [-131072]).isSome = true ∧ (Build.ofParams 1 0 8 0 (List.replicate 17 131071)).isSome = true ∧
    (Build.ofParams 2 0 0 8 (List.replicate 40 0)).isSome = true := by decide

/-! ### Decoding: words written bit by bit from R70 and R72, OPC RSV DATA -/

theorem test_decode_nop : decode 0b0000_000000000000_0000000000000000#32 = .instr .nop := by decide
theorem test_decode_status : decode 0b0001_000000000000_0000000000000000#32 = .instr .status := by decide
theorem test_decode_ack : decode 0b0010_000000000000_0000000000000000#32 = .instr .ack := by decide
theorem test_decode_proc :
    decode 0b0011_000000000000_1000000000000000#32 = .instr (.proc (-32768)) ∧
    decode 0b0011_000000000000_0111111111111111#32 = .instr (.proc 32767) ∧
    decode 0b0011_000000000000_1111111111111110#32 = .instr (.proc (-2)) := by decide
theorem test_decode_procraw :
    decode 0b0100_000000000000_0000111111111111#32 = .instr (.procraw 4095) ∧
    decode 0b0100_000000000000_0000101110111000#32 = .instr (.procraw 3000) := by decide
theorem test_decode_clrst : decode 0b0101_000000000000_0000000000000000#32 = .instr .clrst := by decide
theorem test_decode_info : decode 0b0110_000000000000_0000000000000000#32 = .instr .info := by decide
theorem test_decode_illegal :
    decode 0x00000001#32 = .illegal .dataField ∧ decode 0x40001000#32 = .illegal .dataField ∧
    decode 0x30010000#32 = .illegal .reservedField ∧ decode 0x70000000#32 = .illegal .reservedOpcode ∧
    decode 0xF0000000#32 = .illegal .reservedOpcode ∧ decode 0xFFFFFFFF#32 = .illegal .reservedOpcode := by decide
theorem test_decodeTableWord :
    decodeTableWord 32 0x30008000 = some (.proc (-32768)) ∧ decodeTableWord 32 0x30010000 = none ∧
    decodeTableWord 64 0x30008000 = none := by decide

/-! ### Arithmetic: the tables of 95_test_vectors.md section 2.1 -/

theorem test_RND14 :
    [0, 8191, 8192, -8192, -8193, 16383, 16384, 24576, -24576, -24577, 134217728, 2147483648, -2147491840].map RND14 =
      [0, 0, 1, 0, -1, 1, 1, 2, -1, -2, 8192, 131072, -131072] := by decide

theorem test_QUANT_saturates : QUANT 2147483648 = ⟨32767, true⟩ ∧ QUANT (-2147491840) = ⟨-32768, true⟩ := by decide

theorem test_DENORM :
    [0, 1, 2, -1, -2, -3, 5, 6, 8188, 8189, 8190, -8194, -8195, 32767, -32768].map DENORM =
      [⟨2048, false⟩, ⟨2048, false⟩, ⟨2049, false⟩, ⟨2048, false⟩, ⟨2048, false⟩, ⟨2047, false⟩, ⟨2049, false⟩,
        ⟨2050, false⟩, ⟨4095, false⟩, ⟨4095, false⟩, ⟨4095, true⟩, ⟨0, false⟩, ⟨0, true⟩, ⟨4095, true⟩, ⟨0, true⟩] := by
  decide

theorem test_NORM : [0, 2048, 3000, 1000, 4095].map NORM = [-8192, 0, 3808, -4192, 8188] := by decide

/-! ### The control commands: section 2.3 and 2.4, one step each -/

/-- T14, on a state with every flag set. -/
theorem test_nop :
    shows (step ((flags true 3 true true (start F4 [.issue] [0x00000000#32])))) 0x00000000#32 fourFields
      (true, 3, true, true) = true := by decide

/-- T4 (its last line) and P4 line 8. -/
theorem test_status :
    shows (step (flags true 2 false false (start F4 [.issue] [0x10000000#32]))) 0x00020001#32 fourFields
      (true, 2, false, false) = true ∧
    shows (step (flags false 0 true true (start F1 [.issue] [0x10000000#32]))) 0x00000006#32 fourFields
      (false, 0, true, true) = true := by decide

/-- T3: the response is the status before the clear; a second `ack` answers 0. -/
theorem test_ack :
    shows (step (flags true 0 false false (start F4 [.issue] [0x20000000#32]))) 0x00000001#32 fourFields
      (false, 0, false, false) = true ∧
    shows (step (start F4 [.issue] [0x20000000#32])) 0x00000000#32 fourFields (false, 0, false, false) = true := by decide

/-- T9: `ack` and TICK in one cycle from `READY = 1`: no overrun. -/
theorem test_ack_with_tick :
    shows (step (flags true 0 false false (start F4 [.issueTick] [0x20000000#32]))) 0x00000001#32 fourFields
      (true, 0, false, false) = true := by decide

/-- X5, and T6: CLRST leaves `READY`. -/
theorem test_clrst :
    shows (step (flags false 3 true true (start F4 [.issue] [0x50000000#32]))) 0x00030006#32 fourFields
      (false, 0, false, false) = true ∧
    shows (step (flags true 1 false false (start F4 [.issue] [0x50000000#32]))) 0x00010001#32 fourFields
      (true, 0, false, false) = true := by decide

/-- T10: `clrst` and TICK in one cycle from `READY = 1`. -/
theorem test_clrst_with_tick :
    shows (step (flags true 0 false false (start F4 [.issueTick] [0x50000000#32]))) 0x00000001#32 fourFields
      (true, 1, false, false) = true := by decide

/-- T11, T12, T13. -/
theorem test_info :
    shows (step (start referenceBuild [.issue] [0x60000000#32])) 0x000010B0#32 fourFields (false, 0, false, false) = true ∧
    shows (step (start D2 [.issue] [0x60000000#32])) 0x00001021#32 fourFields (false, 0, false, false) = true ∧
    shows (step (start C2 [.issue] [0x60000000#32])) 0x00001022#32 fourFields (false, 0, false, false) = true := by decide

/-! ### The filter commands: sections 2.5 to 2.7 and 3, one step each -/

/-- F2, fourth call: the tap order; F5, second call: saturation. -/
theorem test_proc_fir :
    shows (step (holding ⟨[0, 0, 0x4000, 0], [], [], []⟩ (start F4 [.issue] [0x30000000#32]))) 0x00000001#32
      (fun S => (S.filter.H, S.SAT)) ([0, 0, 0, 0x4000], false) = true ∧
    shows (step (holding ⟨[0x2000], [], [], []⟩ (start F1 [.issue] [0x30004000#32]))) 0x00007FFF#32
      (fun S => (S.filter.H, S.SAT)) ([0x4000], true) = true := by decide

/-- I3, thirteenth call; P5 line 5; K4, first call: the inner saturation. -/
theorem test_proc_iir :
    shows (step (holding ⟨[], [4096, 4096], [5461, 5465], []⟩ (start D2 [.issue] [0x30001000#32]))) (5460 : Word)
      (fun S => (S.filter.XH, S.filter.YH, S.SAT)) ([4096, 4096], [5460, 5461], false) = true ∧
    shows (step (holding ⟨[], [], [], [⟨0, 0, 0, 8192⟩, ⟨0, 8192, 6144, 12288⟩]⟩ (start C2 [.issue] [0x3000C000#32])))
      0xFFFFEC00#32 (fun S => (S.filter.SEC, S.SAT))
      ([⟨0xC000, 0, 0xE000, 0⟩, ⟨0xE000, 0, 0xEC00, 6144⟩], false) = true ∧
    shows (step (start CS [.issue] [0x30003000#32])) (8192 : Word) (fun S => (S.filter.SEC, S.SAT))
      ([⟨0x3000, 0, 0x7FFF, 0⟩, ⟨0x7FFF, 0, 8192, 0⟩], true) = true := by decide

/-- P4 lines 5 and 6: the clamp of DENORM sets `SAT`. -/
theorem test_procraw_clamps :
    shows (step (start F1 [.issue] [0x40000FFF#32])) 0x00000FFF#32 (fun S => (S.filter.H, S.SAT)) ([8188], true) = true ∧
    shows (step (start F1 [.issue] [0x40000000#32])) 0x00000000#32 (fun S => (S.filter.H, S.SAT)) ([0xE000], true) = true := by
  decide

/-- P2 line 8, and P3's first line. -/
theorem test_procraw_filters :
    shows (step (holding ⟨[3808, 0, 0, 0, 0, 0, 0, 0, 0, 0, 0], [], [], []⟩
        (start referenceBuild [.issue] [0x400003E8#32]))) 0x00000800#32 (fun S => (S.filter.H, S.SAT))
      ([0xEFA0, 0x0EE0, 0, 0, 0, 0, 0, 0, 0, 0, 0], false) = true ∧
    shows (step (start (direct 1 [0x02000, 0, 0x3E000]) [.issue] [0x40000C00#32])) 0x00000A00#32
      (fun S => (S.filter.XH, S.filter.YH, S.SAT)) ([4096], [2048], false) = true := by decide

/-! ### The exception, the TICK, the ports -/

/-- X2, X3, X4. -/
theorem test_illegal :
    shows (step (flags true 0 false false (start F4 [.issue] [0x20000001#32]))) 0x00000000#32 fourFields
      (true, 0, true, false) = true ∧
    shows (step (holding ⟨[5, 6], [], [], []⟩ (start (fir [0x0C000, 0x34000]) [.issue] [0x31004000#32]))) 0x00000000#32
      (fun S => (S.filter.H, S.ERR)) ([5, 6], true) = true ∧
    shows (step (flags false 0 true false (start F4 [.issue] [0x81234567#32]))) 0x00000000#32 fourFields
      (false, 0, true, false) = true := by decide

/-- T2, T4 and T7, one TICK each. -/
theorem test_tick :
    (TICK (start F4 [] []).S).READY = true ∧ fourFields (TICK (flags true 1 false false (start F4 [] [])).S) = (true, 2, false, false) ∧
    fourFields (TICK (flags true 0xFFFF false false (start F4 [] [])).S) = (true, 0xFFFF, false, false) := by decide

/-- `withFetchWord` after reset: the very next step runs the word. -/
theorem test_withFetchWord :
    shows (step (State.reset.withFetchWord 32 0x60000000)) 0x000010B0#32 fourFields (false, 0, false, false) = true := by decide

/-- R230: a TICK after the last command is no part of the run, so it is not in the observation. -/
theorem test_run_ends_at_its_last_command :
    untilLastCommand [.tick, .command 0x20000000#32, .tick] = [.tick, .command 0x20000000#32] ∧
    untilLastCommand [.tick, .tick] = [] ∧
    fourFields (observation F4 [.command 0x20000000#32, .tick]).1 = (false, 0, false, false) ∧
    (observation F4 [.command 0x20000000#32, .tick]).2 = [0#32] := by decide

/-- R80 and R81, in text: P2 lines 1, 2 and 8, P4 line 1, `svc`, a comment, and immediates out of range. -/
theorem test_assembler :
    eventsOfScript ["@tick", "ack ; clear first", "procraw 1000", ".word 0x70000000"] =
      some [.tick, .command 0x20000000#32, .command 0x400003E8#32, .command 0x70000000#32] ∧
    eventsOfText "svc 3000" = some [.command 0x20000000#32, .command 0x40000BB8#32] ∧
    eventsOfText "svcq 0xC000" = some [.command 0x20000000#32, .command 0x3000C000#32] ∧
    eventsOfText "proc 32768" = none ∧ eventsOfText "proc -32769" = none ∧ eventsOfText "procraw 4096" = none ∧
    eventsOfText "proc 0x10000" = none ∧ eventsOfText "NOP" = none := by decide

/-! ### Witnesses: states and operands that meet the hypotheses of the statements -/

theorem witness_DecodeOfEncodeIsTheCommand :
    (Instr.proc (-32768)).wellFormed = true ∧ (Instr.proc 32767).wellFormed = true ∧
    (Instr.procraw 0).wellFormed = true ∧ (Instr.procraw 4095).wellFormed = true := by decide

theorem witness_DecodedWordIsItsOneEncoding :
    decode 0x30008000#32 = .instr (.proc (-32768)) ∧ decode 0x40000FFF#32 = .instr (.procraw 4095) := by decide

/-- Both clauses, at the words on either side of PROCRAW's range. -/
theorem witness_DecoderIsTheDecodeOfTheManual :
    DECODE 0x40000FFF#32 = some (.procraw 4095) ∧ DECODE 0x40001000#32 = none ∧
    DECODE 0x3000FFFF#32 = some (.proc (-1)) ∧ DECODE 0x30010000#32 = none := by decide

/-- Both sides of each row's clause. -/
theorem witness_OpcodeMapRowByRow :
    decode 0x00000000#32 = .instr .nop ∧ decode 0x10000000#32 = .instr .status ∧ decode 0x20000000#32 = .instr .ack ∧
    decode 0x3000FFFF#32 = .instr (.proc (-1)) ∧ 0x3000FFFF#32 &&& 0xFFFF0000#32 = 0x30000000#32 ∧
    decode 0x40000FFF#32 = .instr (.procraw 4095) ∧ 0x40000FFF#32 &&& 0xFFFFF000#32 = 0x40000000#32 ∧
    decode 0x50000000#32 = .instr .clrst ∧ decode 0x60000000#32 = .instr .info ∧
    decode 0x70000000#32 = .illegal .reservedOpcode ∧ ∀ r ∈ opcodeRows, r.encodes 0x70000000#32 = false := by decide

theorem witness_ReservedOpcodesAreIllegal :
    7 ≤ ((0x70000000#32 : Word).extractLsb' 28 4).toNat ∧ 7 ≤ ((0xFFFFFFFF#32 : Word).extractLsb' 28 4).toNat := by decide

theorem witness_StepRunsTheAcceptedCommand :
    Offers (start F4 [.issue, .tick] [0x3000FFFF#32, 0]) 0x3000FFFF#32 [0] [.tick] ∧
    decode 0x3000FFFF#32 = .instr (.proc (-1)) := by decide

theorem witness_IllegalCommandOnlySetsErr :
    Offers (start F4 [.issue] [0x40001000#32]) 0x40001000#32 [] [] ∧ LEGAL 0x40001000#32 = false := by decide

/-- The three clauses; the counter at both ends. -/
theorem witness_TickSetsReadyOrCountsAnOverrun :
    F4.wellFormed = true ∧
    (flags true 0xFFFF false false (start F4 [.tick] [])).S.READY = true ∧ (start F4 [.tick] []).phase = .running ∧
    (flags true 0 false false (start F4 [.tick] [])).S.OVR_CNT = 0#16 ∧ (start F4 [.tick] []).S.READY = false ∧
    (phased .inReset (start F4 [.tick] [])).phase = .inReset ∧ (start F4 [.tick] []).schedule = [.tick] := by decide

/-- Both clauses: `w` an ACK, and `w` a CLRST with `READY` 1 and 0. -/
theorem witness_TickInACommandsCycleComesAfterIt :
    Offers { start F4 [.issueTick] [0x20000000#32] with schedule := [.issue] } 0x20000000#32 [] [] ∧
    (start F4 [.issueTick] [0x20000000#32]).schedule = [.issueTick] ∧
    Offers { flags true 3 true true (start F4 [.issueTick] [0x50000000#32]) with schedule := [.issue] } 0x50000000#32 [] [] ∧
    Offers { start F4 [.issueTick] [0x50000000#32] with schedule := [.issue] } 0x50000000#32 [] [] := by decide

theorem witness_CloseEdgeIsOneTickOrNone :
    (start F4 [.closeEdge] []).build.wellFormed = true ∧ (start F4 [.closeEdge] []).phase = .running ∧
    (start F4 [.closeEdge] []).schedule = [.closeEdge] := by decide

/-- The port free, a waiting response, and each of the three schedules. -/
theorem witness_WaitingResponseStallsTheCommandPort :
    F4.wellFormed = true ∧ (start F4 [] []).phase = .running ∧ (start F4 [] []).rsp = none ∧
    ({ start F4 [.issue] [0] with rsp := some 1 } : State).rsp = some 1 ∧
    ({ start F4 [.issue] [0] with rsp := some 1 } : State).phase = .running ∧
    (start F4 [.issue] [0]).schedule = [.issue] ∧ (start F4 [.tick] [0]).schedule = [.tick] ∧
    (start F4 [.take] [0]).schedule = [.take] := by decide

theorem witness_EachAcceptedCommandHasOneResponse :
    (∀ e ∈ (start F4 [.issue, .take, .issue] [0, 0]).schedule, e ≠ .resetAssert ∧ e ≠ .resetRelease ∧ e ≠ .powerCycle) ∧
    ∃ t, runSteps 3 (start F4 [.issue, .take, .issue] [0, 0]) = .next t ∧ t.responses = [0] ∧ waiting t = 1 :=
  ⟨by decide, _, rfl, by decide, by decide⟩

theorem witness_PortMachineRefinesTheEventOrder :
    F4.wellFormed = true ∧ D2.wellFormed = true ∧ C2.wellFormed = true ∧
    IsRunOf [0x20000000#32] [.tick, .command 0x20000000#32] ∧ IsRunOf [] [] := by decide

theorem witness_ResetLeavesTheResetValues :
    (flags true 3 true true (start F4 [.resetAssert, .resetRelease] [])).build.wellFormed = true ∧
    (flags true 3 true true (start F4 [.resetAssert, .resetRelease] [])).schedule = [.resetAssert, .resetRelease] := by decide

/-- Every clause: in reset with each event, the assertion with a response waiting, the release in each phase. -/
theorem witness_NothingHappensWhileResetIsAsserted :
    (∀ e ∈ [Event.issue, .take, .tick, .issueTick, .closeEdge],
      Inv (phased .inReset (start C2 [e] [0x20000000#32])) ∧ (phased .inReset (start C2 [e] [0x20000000#32])).schedule = [e]) ∧
    Inv { flags true 3 true true (start C2 [.resetAssert] [0]) with rsp := some 1 } ∧
    ∀ p ∈ [Phase.beforeReset, .inReset, .running],
      Inv (phased p (start C2 [.resetRelease] [])) ∧ (phased p (start C2 [.resetRelease] [])).schedule = [.resetRelease] := by
  decide

theorem witness_EventsBeforeTheFirstResetAreRefused :
    ∀ e ∈ [Event.issue, .take, .tick, .issueTick, .closeEdge],
      (phased .beforeReset (start F4 [e] [0])).build.wellFormed = true ∧
      (phased .beforeReset (start F4 [e] [0])).phase = .beforeReset ∧
      (phased .beforeReset (start F4 [e] [0])).schedule = [e] := by decide

theorem witness_PowerLossNeedsAReset :
    (start F4 [.powerCycle] []).build.wellFormed = true ∧ (start F4 [.powerCycle] []).schedule = [.powerCycle] := by decide

/-- Builds at the ends of the ranges, and one that a step refuses. -/
theorem witness_OnlyWellFormedBuildsAreAccepted :
    (Build.ofParams 0 64 0 0 (List.replicate 64 131071)).isSome = true ∧
    (Build.ofParams 1 0 1 0 [-131072, 0, 0]).isSome = true ∧ (Build.ofParams 2 0 0 1 [0, 0, 0, 0, 131071]).isSome = true ∧
    (fir []).wellFormed = false := by decide

theorem witness_InfoWordFields :
    (fir (List.replicate 64 0)).wellFormed = true ∧ (direct 8 (List.replicate 17 0)).wellFormed = true ∧
    (cascade 8 (List.replicate 40 0)).wellFormed = true := by decide

theorem witness_ProcOnAFirBuild :
    F4.STRUCT = .FIR ∧ 1 ≤ F4.NTAPS ∧ (start F4 [] []).S.filter.H.length = F4.NTAPS ∧
    InSampleRange (-32768) ∧ InSampleRange 32767 := by decide

theorem witness_ProcOnADirectFormBuild :
    D2.STRUCT = .IIR_DIRECT ∧ 1 ≤ D2.NORD ∧ (start D2 [] []).S.filter.XH.length = D2.NORD ∧
    (start D2 [] []).S.filter.YH.length = D2.NORD ∧ InSampleRange (-32768) := by decide

theorem witness_ProcOnACascadeBuild :
    C2.STRUCT = .IIR_CASCADE ∧ (start C2 [] []).S.filter.SEC.length = C2.NSEC ∧ InSampleRange (-32768) := by decide

theorem witness_ProcAnswersASampleInRange : InSampleRange (-32768) ∧ InSampleRange 32767 := by decide

theorem witness_ProcrawIsNormalizeFilterDenormalize : (0 : Nat) ≤ 4095 ∧ (4095 : Nat) ≤ 4095 := by decide

/-- PROC and PROCRAW on each structure, `SAT` set before. -/
theorem witness_FilterCommandsFrame :
    ∃ t u v, exec (.proc (-32768)) (flags true 3 true true (start F4 [] [])) = .next t ∧
      exec (.procraw 4095) (flags true 3 true true (start D2 [] [])) = .next u ∧
      exec (.proc 32767) (flags true 3 true true (start C2 [] [])) = .next v ∧
      F4.STRUCT ≠ .IIR_DIRECT ∧ D2.STRUCT ≠ .IIR_CASCADE ∧ C2.STRUCT ≠ .FIR :=
  ⟨_, _, _, rfl, rfl, rfl, by decide, by decide, by decide⟩

theorem witness_FilteringIgnoresTheFlags :
    (start F4 [] []).build = (flags true 3 true true (start F4 [] [])).build ∧
    (start F4 [] []).S.filter = (flags true 3 true true (start F4 [] [])).S.filter ∧
    start F4 [] [] ≠ flags true 3 true true (start F4 [] []) := by decide

theorem witness_FilterStateCannotBeRead :
    DECODE 0x10000000#32 = some .status ∧ DECODE 0x40001000#32 = none ∧
    ¬(∃ x, DECODE 0x10000000#32 = some (.proc x)) ∧ ¬(∃ raw, DECODE 0x10000000#32 = some (.procraw raw)) := by
  have h : DECODE 0x10000000#32 = some .status := by decide
  refine ⟨h, by decide, ?_, ?_⟩ <;> rintro ⟨x, hx⟩ <;> rw [h] at hx <;> cases hx

/-- Every clause of the statements of who writes what that is about an accepted word: from this state, which meets `Inv`, the
word is accepted, whatever word it is, and the step answers a next state. -/
theorem witness_who_writes_accepted (w : Word) :
    Inv (flags true 3 true true (start F1 [.issue] [w])) ∧
    accepted (flags true 3 true true (start F1 [.issue] [w])) = some w ∧
    bringsTick (flags true 3 true true (start F1 [.issue] [w])) = false ∧
    replacesS (flags true 3 true true (start F1 [.issue] [w])) = false ∧
    ∃ t, step (flags true 3 true true (start F1 [.issue] [w])) = .next t :=
  have hb : F1.wellFormed = true := by decide
  ⟨⟨hb, (by decide : Fits F1 (Engine.afterReset F1).filter), fun h => absurd rfl h, fun h => nomatch h⟩, rfl, rfl, rfl,
    _, (step_eq hb rfl).trans ((applyEvent_eq _ _).trans rfl)⟩

/-- The words those clauses speak of: no filter command, an illegal word, and the two filter commands. -/
theorem witness_who_writes_words :
    LEGAL 0x20000000#32 = true ∧ LEGAL 0x40001000#32 = false ∧ DECODE 0x40001000#32 = none ∧
    DECODE 0x20000000#32 = some .ack := by decide

/-- The same for a TICK, a TICK in a command's cycle, an unaccepted turn and a reset. -/
theorem witness_who_writes_other :
    ∀ e ∈ [Event.tick, .issueTick, .take, .issue, .resetAssert, .resetRelease],
      Inv (flags true 0xFFFF true true (start F4 [e] [])) ∧ (start F4 [e] []).phase = .running ∧
      (start F4 [e] []).schedule = [e] ∧ accepted (flags true 0xFFFF true true (start F4 [e] [])) = none := by decide

/-- The clauses about reset: every event in reset, its release among them, and the release where it is not asserted. -/
theorem witness_who_writes_reset :
    (∀ e ∈ [Event.issue, .take, .tick, .issueTick, .closeEdge, .resetRelease],
      Inv (phased .inReset (start F1 [e] [])) ∧ (phased .inReset (start F1 [e] [])).schedule = [e] ∧
      replacesS (phased .inReset (start F1 [e] [])) = false) ∧
    replacesS (flags true 3 true true (start F1 [.resetRelease] [])) = false ∧
    bringsTick (flags true 3 true true (start F1 [.resetRelease] [])) = false ∧
    ∃ t u v, step (phased .inReset (start F1 [.tick] [])) = .next t ∧
      step (phased .inReset (start F1 [.resetRelease] [])) = .next u ∧
      step (flags true 3 true true (start F1 [.resetRelease] [])) = .next v ∧ v.S.READY = true ∧ v.S.OVR_CNT = 3#16 :=
  ⟨by decide, by decide, by decide, _, _, _, rfl, rfl, rfl, by decide, by decide⟩

/-- The clause about a close edge. -/
theorem witness_who_writes_close_edge :
    Inv (start F1 [.closeEdge] []) ∧ (start F1 [.closeEdge] []).schedule = [.closeEdge] ∧
    ∃ t, step (start F1 [.closeEdge] []) = .next t :=
  ⟨by decide, rfl, _, rfl⟩

theorem witness_ReadyIsWrittenOnlyByTickAckAndReset :
    Inv (start F4 [.issueTick] [0x20000000#32]) ∧ ∃ t, step (start F4 [.issueTick] [0x20000000#32]) = .next t ∧ t.S.READY = true :=
  ⟨by decide, _, rfl, by decide⟩

theorem witness_ErrIsWrittenOnlyByIllegalClrstAndReset :
    Inv (start F4 [.issue] [0x40001000#32]) ∧ accepted (start F4 [.issue] [0x40001000#32]) = some 0x40001000#32 ∧
    LEGAL 0x40001000#32 = false ∧ ∃ t, step (start F4 [.issue] [0x40001000#32]) = .next t ∧ t.S.ERR = true :=
  ⟨by decide, by decide, by decide, _, rfl, by decide⟩

theorem witness_SatIsWrittenOnlyByFilteringClrstAndReset :
    Inv (flags true 3 true true (start F4 [.issue] [0x50000000#32])) ∧
    ∃ t, step (flags true 3 true true (start F4 [.issue] [0x50000000#32])) = .next t ∧ t.S.SAT = false :=
  ⟨by decide, _, rfl, by decide⟩

theorem witness_OverrunCounterIsWrittenOnlyByTickClrstAndReset :
    Inv (flags true 0xFFFF false false (start F4 [.tick] [])) ∧
    ∃ t, step (flags true 0xFFFF false false (start F4 [.tick] [])) = .next t ∧ t.S.OVR_CNT = 0xFFFF#16 :=
  ⟨by decide, _, rfl, by decide⟩

theorem witness_OverrunCounterCountsTheLostTicks :
    (Engine.afterReset F4).OVR_CNT = 0#16 ∧
    RunEvent.command 0x50000000#32 ∉ [RunEvent.tick, .tick, .command 0x20000000#32, .tick, .tick] ∧
    overruns F4 [.tick, .tick, .command 0x20000000#32, .tick, .tick] (Engine.afterReset F4) = 2 := by decide

/-- The three clauses, with the words of the ends of the operand ranges. -/
theorem witness_FilterStateChangesOnlyByFiltering :
    Inv (start C2 [.issue] [0x30008000#32]) ∧ DECODE 0x30008000#32 = some (.proc (-32768)) ∧
    accepted (start C2 [.issue] [0x30008000#32]) = some 0x30008000#32 ∧
    DECODE 0x40000FFF#32 = some (.procraw 4095) ∧ accepted (start C2 [.issue] [0x40000FFF#32]) = some 0x40000FFF#32 ∧
    accepted (start C2 [.tick] []) = none ∧ replacesS (start C2 [.tick] []) = false ∧
    ∃ t, step (start C2 [.issue] [0x30008000#32]) = .next t :=
  ⟨by decide, by decide, by decide, by decide, by decide, by decide, by decide, _, rfl⟩

theorem witness_ClearFirstKeepsTheTick :
    (4095 : Nat) ≤ 4095 ∧ (flags true 0xFFFF false false (start F1 [] [])).S.READY = true := by decide

theorem witness_EveryStepKeepsTheInvariant :
    Inv (start D2 [.issueTick] [0x30008000#32]) ∧ ∃ t, step (start D2 [.issueTick] [0x30008000#32]) = .next t :=
  ⟨by decide, _, rfl⟩

theorem witness_ResetMeetsTheInvariant : F4.wellFormed = true ∧ D2.wellFormed = true ∧ C2.wellFormed = true := by decide

theorem witness_NoEventChangesTheBuild :
    ∃ t, runSteps 2 (start F4 [.resetAssert, .powerCycle] []) = .next t := ⟨_, rfl⟩

theorem witness_SumsFitTheAccumulator :
    F4.wellFormed = true ∧ F4.STRUCT = .FIR ∧ D2.wellFormed = true ∧ D2.STRUCT = .IIR_DIRECT ∧ C2.wellFormed = true ∧
    C2.STRUCT = .IIR_CASCADE ∧ InSampleRange (-32768) := by decide

theorem witness_DenormOfNormIsTheRawCode : NORM 0 = -8192 ∧ NORM 4095 = 8188 ∧ (4095 : Nat) ≤ 4095 := by decide

theorem witness_DenormClampsOutsideItsRange :
    InSampleRange (-8195) ∧ InSampleRange (-8194) ∧ InSampleRange 8189 ∧ InSampleRange 8190 ∧
    (DENORM (-8195)).saturated = true ∧ (DENORM (-8194)).saturated = false ∧
    (DENORM 8189).saturated = false ∧ (DENORM 8190).saturated = true := by decide

/-- For the laws of the FIR structure from reset. -/
theorem witness_FirConvolutionLaw :
    (start F4 [] []).build.wellFormed = true ∧ F4.STRUCT = .FIR ∧ Fits F4 (start F4 [] []).S.filter ∧
    AllZero (start F4 [] []).S.filter ∧ ∀ x ∈ [-32768, 32767, (0 : Int)], InSampleRange x :=
  ⟨by decide, by decide, by decide, zero_allZero F4, by decide⟩

theorem witness_FirImpulseLaw :
    (start F4 [] []).build.wellFormed = true ∧ F4.STRUCT = .FIR ∧ Fits F4 (start F4 [] []).S.filter ∧
    AllZero (start F4 [] []).S.filter :=
  ⟨by decide, by decide, by decide, zero_allZero F4⟩

theorem witness_SourceFirOrderGivesTheSameOutputs :
    (start F4 [] []).build.wellFormed = true ∧ F4.STRUCT = .FIR ∧ Fits F4 (start F4 [] []).S.filter ∧
    AllZero (start F4 [] []).S.filter ∧ ∀ x ∈ [0x4000, 0, (0 : Int)], InSampleRange x :=
  ⟨by decide, by decide, by decide, zero_allZero F4, by decide⟩

/-- From a state that is not zero. -/
theorem witness_FirSteadyState :
    F4.wellFormed = true ∧ F4.STRUCT = .FIR ∧ Fits F4 ⟨[5, 6, 7, 0x8000], [], [], []⟩ ∧ InSampleRange (-32768) ∧
    F4.NTAPS ≤ 4 := by decide

theorem witness_IdentityFirDelaysRawCodes :
    referenceBuild.wellFormed = true ∧ referenceBuild.STRUCT = .FIR ∧
    Fits referenceBuild State.reset.S.filter ∧ AllZero State.reset.S.filter ∧ 5 < referenceBuild.NTAPS ∧
    (∀ k < referenceBuild.NTAPS, referenceBuild.C k = if k = 5 then 0x4000 else 0) ∧ ∀ r ∈ [0, 4095], r ≤ 4095 :=
  ⟨by decide, by decide, by decide, zero_allZero referenceBuild, by decide, by decide, by decide⟩

/-- Both clauses. -/
theorem witness_FirMidScaleLaw :
    F4.wellFormed = true ∧ F4.STRUCT = .FIR ∧ Fits F4 ⟨[5, 6, 7, 0x8000], [], [], []⟩ ∧ F4.NTAPS ≤ 4 ∧
    Fits F4 (start F4 [] []).S.filter ∧ AllZero (start F4 [] []).S.filter :=
  ⟨by decide, by decide, by decide, by decide, by decide, zero_allZero F4⟩

theorem witness_DirectFormRecurrenceLaw :
    D2.wellFormed = true ∧ D2.STRUCT = .IIR_DIRECT ∧ Fits D2 (start D2 [] []).S.filter ∧
    AllZero (start D2 [] []).S.filter ∧ ∀ x ∈ [-32768, (32767 : Int)], InSampleRange x :=
  ⟨by decide, by decide, by decide, zero_allZero D2, by decide⟩

theorem witness_DirectFormImpulseShowsShiftAfterSum :
    D2.wellFormed = true ∧ D2.STRUCT = .IIR_DIRECT ∧ Fits D2 (start D2 [] []).S.filter ∧
    AllZero (start D2 [] []).S.filter :=
  ⟨by decide, by decide, by decide, zero_allZero D2⟩

theorem witness_direct_form_settled :
    shows (exec (.proc 4096) (holding ⟨[], [4096, 4096], [5462, 5462], []⟩ (start D2 [] []))) (BitVec.ofInt 32 5462)
      (fun S => S.SAT) false = true := by decide

/-- I3, settled: every output from the fifteenth on is 5462, at the edge of the bound. -/
theorem witness_DirectFormDcLaw :
    D2.wellFormed = true ∧ D2.STRUCT = .IIR_DIRECT ∧ Fits D2 ⟨[], [4096, 4096], [5462, 5462], []⟩ ∧
    InSampleRange 4096 ∧ InSampleRange 5462 ∧ 0 < 2 ^ 14 + ∑ i ∈ Finset.range D2.NORD, D2.A (i + 1) ∧
    (∀ w ∈ ([4096, 4096] : List Sample), w.toInt = 4096) ∧ (∀ w ∈ ([5462, 5462] : List Sample), w.toInt = 5462) ∧
    shows (exec (.proc 4096) (holding ⟨[], [4096, 4096], [5462, 5462], []⟩ (start D2 [] []))) (BitVec.ofInt 32 5462)
      (fun S => S.SAT) false = true :=
  ⟨by decide, by decide, by decide, by decide, by decide, by decide, by simp, by simp, witness_direct_form_settled⟩

theorem witness_DirectFormZeroInput :
    D2.wellFormed = true ∧ D2.STRUCT = .IIR_DIRECT ∧ Fits D2 ⟨[], [7, 0x8000], [5, 0x7FFF], []⟩ ∧ D2.NORD ≤ 2 := by decide

theorem witness_CascadeRecurrenceLaw :
    C2.wellFormed = true ∧ C2.STRUCT = .IIR_CASCADE ∧ Fits C2 (start C2 [] []).S.filter ∧
    AllZero (start C2 [] []).S.filter ∧ ∀ x ∈ [-32768, (32767 : Int)], InSampleRange x :=
  ⟨by decide, by decide, by decide, zero_allZero C2, by decide⟩

/-- K2, settled. -/
theorem witness_CascadeDcLaw :
    C2.wellFormed = true ∧ C2.STRUCT = .IIR_CASCADE ∧
    Fits C2 ⟨[], [], [], [⟨4096, 4096, 4096, 4096⟩, ⟨4096, 4096, 8192, 8192⟩]⟩ ∧ InSampleRange 4096 ∧
    ∃ t, exec (.proc 4096) (holding ⟨[], [], [], [⟨4096, 4096, 4096, 4096⟩, ⟨4096, 4096, 8192, 8192⟩]⟩ (start C2 [] []))
        = .next t ∧
      t.S.filter = ⟨[], [], [], [⟨4096, 4096, 4096, 4096⟩, ⟨4096, 4096, 8192, 8192⟩]⟩ ∧ t.S.SAT = false :=
  ⟨by decide, by decide, by decide, by decide, _, rfl, by decide, by decide⟩

/-- Both branches of each line with an immediate, at the ends of its range. -/
theorem witness_AssemblerLines :
    Line.events (.proc (.dec 32768)) = none ∧ Line.events (.proc (.dec (-32768))) = some [.command 0x30008000#32] ∧
    Line.events (.proc (.hex 0x10000)) = none ∧ Line.events (.proc (.hex 0xFFFF)) = some [.command 0x3000FFFF#32] ∧
    Line.events (.procraw (.dec (-1))) = none ∧ Line.events (.procraw (.dec 4095)) = some [.command 0x40000FFF#32] ∧
    Line.events (.procraw (.hex 4096)) = none ∧ Line.events (.word (2 ^ 32)) = none ∧
    Line.events (.word 0xFFFFFFFF) = some [.command 0xFFFFFFFF#32] := by decide

end Sys2Proof.Tests
end

section
/-! What a build is accepted for (R6), what one step does on an accepted word (R12, R57), and the machine's invariant: every
event keeps it. -/

namespace Sys2Proof

open Sys2Proof.Machine Sys2Proof.Safety

/-! ### Which builds are accepted (R6) -/

/-- The value of `STRUCT` and the structure determine each other (R5, R6 condition (1)). -/
theorem ofCode_eq_some_iff {st : Nat} {k : Struct} : Struct.ofCode st = some k ↔ k.code = st := by
  match st with
  | 0 | 1 | 2 | _ + 3 => cases k <;> simp [Struct.ofCode, Struct.code]

theorem coefInRange_iff {c : Int} : coefInRange c = true ↔ -131072 ≤ c ∧ c ≤ 131071 := by
  simp [coefInRange]

theorem Build.wellFormed_iff {b : Build} :
    b.wellFormed = true ↔ 1 ≤ b.LEN ∧ b.LEN ≤ b.STRUCT.maxLen ∧ b.COEF.length = b.NCOEF := by
  simp [Build.wellFormed, and_assoc]

/-- The build of the numbers of R5's table, once their structure is known. -/
def Build.ofNumbers (k : Struct) (nt no ns : Nat) (coef : List Int) : Build :=
  ⟨k, nt, no, ns, coef.map (BitVec.ofInt 18)⟩

/-- R6 conditions (2) and (3) on plain numbers, for each structure. -/
theorem ofNumbers_wellFormed_iff (k : Struct) (nt no ns : Nat) (coef : List Int) :
    (Build.ofNumbers k nt no ns coef).wellFormed = true ↔
      match k with
      | .FIR => 1 ≤ nt ∧ nt ≤ 64 ∧ coef.length = nt
      | .IIR_DIRECT => 1 ≤ no ∧ no ≤ 8 ∧ coef.length = 2 * no + 1
      | .IIR_CASCADE => 1 ≤ ns ∧ ns ≤ 8 ∧ coef.length = 5 * ns := by
  rw [Build.wellFormed_iff]
  cases k <;> simp [Build.ofNumbers, Build.LEN, Build.NCOEF, Struct.maxLen]

/-- The numbers give the build `b` exactly when all four conditions of R6 hold. -/
theorem ofParams_eq_some_iff {st nt no ns : Nat} {coef : List Int} {b : Build} :
    Build.ofParams st nt no ns coef = some b ↔
      ∃ k : Struct, k.code = st ∧ Build.ofNumbers k nt no ns coef = b ∧
        (Build.ofNumbers k nt no ns coef).wellFormed = true ∧ ∀ c ∈ coef, -131072 ≤ c ∧ c ≤ 131071 := by
  simp only [← ofCode_eq_some_iff, ← coefInRange_iff]
  unfold Build.ofParams
  cases Struct.ofCode st with
  | none => simp
  | some k => simp [Build.ofNumbers, and_comm]

/-- The four conditions of R6 on plain numbers say that some build is accepted. -/
theorem exists_ofParams_iff (st nt no ns : Nat) (coef : List Int) :
    (∃ b, Build.ofParams st nt no ns coef = some b) ↔
      (st = 0 ∧ 1 ≤ nt ∧ nt ≤ 64 ∧ coef.length = nt ∨
        st = 1 ∧ 1 ≤ no ∧ no ≤ 8 ∧ coef.length = 2 * no + 1 ∨
        st = 2 ∧ 1 ≤ ns ∧ ns ≤ 8 ∧ coef.length = 5 * ns) ∧
      ∀ c ∈ coef, -131072 ≤ c ∧ c ≤ 131071 := by
  simp only [ofParams_eq_some_iff, ofNumbers_wellFormed_iff]
  constructor
  · rintro ⟨_, k, rfl, -, hk, hc⟩
    refine ⟨?_, hc⟩
    cases k with
    | FIR => exact .inl ⟨rfl, hk⟩
    | IIR_DIRECT => exact .inr (.inl ⟨rfl, hk⟩)
    | IIR_CASCADE => exact .inr (.inr ⟨rfl, hk⟩)
  · rintro ⟨⟨rfl, hk⟩ | ⟨rfl, hk⟩ | ⟨rfl, hk⟩, hc⟩
    · exact ⟨_, .FIR, rfl, rfl, hk, hc⟩
    · exact ⟨_, .IIR_DIRECT, rfl, rfl, hk, hc⟩
    · exact ⟨_, .IIR_CASCADE, rfl, rfl, hk, hc⟩

/-- A coefficient in range survives being written as an 18-bit word and read back (R9, R11). -/
theorem toInt_ofInt18 {c : Int} (h : -131072 ≤ c ∧ c ≤ 131071) : (BitVec.ofInt 18 c).toInt = c := by
  obtain ⟨h1, h2⟩ := h
  exact BitVec.toInt_ofInt_eq_self (by decide) (by norm_num; omega) (by norm_num; omega)

/-- The coefficients of an accepted build are the given numbers. -/
theorem ofNumbers_C {k : Struct} {nt no ns : Nat} {coef : List Int}
    (hc : ∀ c ∈ coef, -131072 ≤ c ∧ c ≤ 131071) {i : Nat} (hi : i < coef.length) :
    (Build.ofNumbers k nt no ns coef).C i = coef.getD i 0 := by
  have hr := toInt_ofInt18 (hc coef[i] (List.getElem_mem hi))
  simpa [Build.C, Build.ofNumbers, hi] using hr

/-- A step has no meaning on a build that R6 refuses. -/
theorem step_of_illFormed {s : State} (h : s.build.wellFormed = false) : step s = .refused .illFormedBuild := by
  simp [step, h]

/-- Settles O19: the conditions on plain numbers, the coefficients of what is accepted, and the refusal by a step. -/
theorem onlyWellFormedBuildsAreAccepted : Obligations.OnlyWellFormedBuildsAreAccepted := by
  refine ⟨fun st nt no ns coef => ⟨exists_ofParams_iff st nt no ns coef, fun b hb => ?_⟩, fun s => step_of_illFormed⟩
  obtain ⟨k, hst, rfl, hwf, hc⟩ := ofParams_eq_some_iff.mp hb
  exact ⟨hwf, hst, fun i => ofNumbers_C hc⟩

end Sys2Proof

namespace Sys2Proof.Machine

open Sys2Proof.Safety

/-! ### A step on an accepted word (R12, R57) -/

/-- A step that accepts a word is the execution of that word, with the word and the event taken off. -/
theorem step_of_offers {s : State} {w : Word} {ws : List Word} {es : List Event} (h : Offers s w ws es) :
    step s = runCommand w { s with commands := ws, schedule := es } := by
  obtain ⟨hb, hp, hr, hc, hs⟩ := h
  rw [step_eq hb hs]
  simp only [applyEvent, whenRunning, hp, issueCommand, hr, hc]

/-- A legal word executes as its command. -/
theorem runCommand_of_decode {w : Word} {i : Instr} (h : decode w = .instr i) (s : State) :
    runCommand w s = exec i s := by
  simp only [runCommand, h]

/-- Settles O7: the step executes the word, and the word executes as its command. -/
theorem stepRunsTheAcceptedCommand : Obligations.StepRunsTheAcceptedCommand :=
  fun _ _ _ _ _ ho hd => (step_of_offers ho).trans (runCommand_of_decode hd _)

/-! ### The invariant -/

/-- While running, the invariant asks only for the build's legality and the shape of the filter state. -/
theorem inv_of_running {s : State} (hb : s.build.wellFormed = true) (hf : Fits s.build s.S.filter)
    (hp : s.phase = .running) : Inv s :=
  ⟨hb, hf, fun h => absurd hp h, fun h => by simp [hp] at h⟩

theorem afterReset_fits (b : Build) : Fits b (Engine.afterReset b).filter := ofWords_fits b _

theorem enterReset_inv {s : State} (hb : s.build.wellFormed = true) : Inv s.enterReset :=
  ⟨hb, afterReset_fits s.build, fun _ => rfl, fun _ => rfl⟩

theorem leaveReset_inv {s : State} (h : Inv s) : Inv s.leaveReset := by
  have ⟨hb, _⟩ := h
  unfold State.leaveReset
  split
  · exact inv_of_running hb (afterReset_fits s.build) rfl
  · exact h
  · exact h

theorem powerLoss_inv {s : State} (hb : s.build.wellFormed = true) : Inv s.powerLoss :=
  ⟨hb, ofWords_fits s.build _, fun _ => rfl, fun h => nomatch h⟩

/-- The events of reset and power keep the invariant in every phase. -/
theorem after_inv_of_isReset {e : Event} {s : State} (he : e.isReset = true) (h : Inv s) : Inv (s.after e) := by
  have ⟨hb, _⟩ := h
  cases e with
  | resetAssert => exact enterReset_inv hb
  | resetRelease => exact leaveReset_inv h
  | powerCycle => exact powerLoss_inv hb
  | issue | take | tick | issueTick | closeEdge => cases he

theorem issued_fits {s : State} (h : Fits s.build s.S.filter) : Fits s.build s.issued.S.filter := by
  unfold State.issued
  split
  · exact wordEffect_fits _ h
  · exact h

@[simp] theorem closeEdge_filter (s : State) : s.closeEdge.S.filter = s.S.filter := by
  rcases closeEdge_S s with h | h <;> simp [h]

/-- A command, a TICK or a transfer leaves the engine in its phase. -/
theorem after_phase {e : Event} (he : e.isReset = false) (s : State) : (s.after e).phase = s.phase := by
  cases e with
  | issue | take | tick | issueTick | closeEdge => simp [State.after]
  | resetAssert | resetRelease | powerCycle => cases he

/-- A command, a TICK or a transfer keeps the shape of the filter state. -/
theorem after_fits {e : Event} (he : e.isReset = false) {s : State} (h : Fits s.build s.S.filter) :
    Fits s.build (s.after e).S.filter := by
  cases e with
  | issue => exact issued_fits h
  | issueTick => simpa only [State.after, tick_S, TICK_filter] using issued_fits h
  | take | tick | closeEdge => simpa only [State.after, deliver_S, tick_S, TICK_filter, closeEdge_filter] using h
  | resetAssert | resetRelease | powerCycle => cases he

/-- A command, a TICK or a transfer keeps the invariant while running. -/
theorem after_inv_of_running {e : Event} {s : State} (he : e.isReset = false) (hp : s.phase = .running) (h : Inv s) :
    Inv (s.after e) := by
  obtain ⟨hb, hf, _, _⟩ := h
  refine inv_of_running ?_ ?_ ((after_phase he s).trans hp)
  · simpa only [after_build] using hb
  · simpa only [after_build] using after_fits he hf

/-- Settles O40, by the cases of `step_cases`: no effect, an event of reset or power, or an event while running. The invariant
does not speak of the schedule. -/
theorem everyStepKeepsTheInvariant : Obligations.EveryStepKeepsTheInvariant := by
  intro s t hI hstep
  have hI' : ∀ es, Inv { s with schedule := es } := fun _ => hI
  obtain ⟨_, ⟨_, rfl⟩ | ⟨e, es, _, ⟨he, rfl⟩ | ⟨_, _, rfl⟩ | ⟨he, hp, rfl⟩⟩⟩ := step_cases hstep
  · exact hI
  · exact after_inv_of_isReset he (hI' es)
  · exact hI' es
  · exact after_inv_of_running he hp (hI' es)

end Sys2Proof.Machine
end

section
/-! Who writes what in `S` (R23 to R25), what shows of the filter state (R37), the fields of the STATUS and INFO words (R27, R28),
and what holds of every run (R33) and after reset (R36). -/

namespace Sys2Proof

open Sys2Proof.Machine Sys2Proof.Safety

/-! ### The decoder and the manual's `LEGAL` and `DECODE` (R76, R79) -/

/-- `LEGAL` by the number the word is: exactly the words that R72's table matches. -/
theorem LEGAL_iff (w : Word) :
    LEGAL w = true ↔
      w.toNat = 0 ∨ w.toNat = 0x10000000 ∨ w.toNat = 0x20000000 ∨ w.toNat / 2 ^ 16 = 0x3000 ∨
        w.toNat / 2 ^ 12 = 0x40000 ∨ w.toNat = 0x50000000 ∨ w.toNat = 0x60000000 := by
  have hw := w.isLt
  simp only [LEGAL, Bool.and_eq_true, Bool.or_eq_true, beq_iff_eq, ← BitVec.toNat_inj, BitVec.extractLsb'_toNat,
    BitVec.toNat_ofNat, Nat.shiftRight_eq_div_pow]
  omega

theorem opcode_toNat (w : Word) : (w.extractLsb' 28 4).toNat = w.toNat / 2 ^ 28 := by
  have hw := w.isLt
  rw [BitVec.extractLsb'_toNat, Nat.shiftRight_eq_div_pow]
  omega

/-- The commands that take no operand (R75). -/
def operandFree : List Instr := [.nop, .status, .ack, .clrst, .info]

theorem decode_encode_of_operandFree : ∀ i ∈ operandFree, decode (encode i) = .instr i := by decide

theorem DECODE_encode_of_operandFree : ∀ i ∈ operandFree, DECODE (encode i) = some i := by decide

theorem decode_of_proc {w : Word} (h : w.toNat / 2 ^ 16 = 0x3000) : decode w = .instr (.proc (dataField w).toInt) := by
  rw [decode_eq, if_neg (by omega), if_neg (by omega), if_neg (by omega), if_pos h]

theorem decode_of_procraw {w : Word} (h : w.toNat / 2 ^ 12 = 0x40000) :
    decode w = .instr (.procraw (w.toNat % 2 ^ 12)) := by
  rw [decode_eq, if_neg (by omega), if_neg (by omega), if_neg (by omega), if_neg (by omega), if_pos h]

theorem DECODE_of_proc {w : Word} (h : w.toNat / 2 ^ 16 = 0x3000) : DECODE w = some (.proc (dataField w).toInt) := by
  have hl : LEGAL w = true := (LEGAL_iff w).mpr (by omega)
  have hopc : (w.extractLsb' 28 4).toNat = 3 := by rw [opcode_toNat]; omega
  simp [DECODE, hl, hopc, dataField]

theorem DECODE_of_procraw {w : Word} (h : w.toNat / 2 ^ 12 = 0x40000) :
    DECODE w = some (.procraw (w.toNat % 2 ^ 12)) := by
  have hl : LEGAL w = true := (LEGAL_iff w).mpr (by omega)
  have hopc : (w.extractLsb' 28 4).toNat = 4 := by rw [opcode_toNat]; omega
  simp [DECODE, hl, hopc]

/-- A word that is not `LEGAL` matches no row of the table. -/
theorem decode_of_not_LEGAL {w : Word} (h : LEGAL w = false) : decode w = .illegal (illegalCause w) := by
  have hn := mt (LEGAL_iff w).mpr (by simp [h])
  simp only [not_or] at hn
  obtain ⟨h1, h2, h3, h4, h5, h6, h7⟩ := hn
  rw [decode_eq, if_neg h1, if_neg h2, if_neg h3, if_neg h4, if_neg h5, if_neg h6, if_neg h7]

/-- Every word is the one word of a command without operand, a word of PROC, a word of PROCRAW, or illegal. -/
theorem word_cases (w : Word) :
    (∃ i ∈ operandFree, w = encode i) ∨ w.toNat / 2 ^ 16 = 0x3000 ∨ w.toNat / 2 ^ 12 = 0x40000 ∨ LEGAL w = false := by
  cases hl : LEGAL w with
  | false => simp
  | true =>
    rcases (LEGAL_iff w).mp hl with h | h | h | h | h | h | h
    · exact .inl ⟨.nop, by decide, BitVec.eq_of_toNat_eq h⟩
    · exact .inl ⟨.status, by decide, BitVec.eq_of_toNat_eq h⟩
    · exact .inl ⟨.ack, by decide, BitVec.eq_of_toNat_eq h⟩
    · exact .inr (.inl h)
    · exact .inr (.inr (.inl h))
    · exact .inl ⟨.clrst, by decide, BitVec.eq_of_toNat_eq h⟩
    · exact .inl ⟨.info, by decide, BitVec.eq_of_toNat_eq h⟩

/-- A word that decodes to a command decodes to the same one by R79. -/
theorem DECODE_of_decode {w : Word} {i : Instr} (h : decode w = .instr i) : DECODE w = some i := by
  rcases word_cases w with ⟨j, hj, rfl⟩ | hw | hw | hw
  · rw [decode_encode_of_operandFree j hj] at h
    cases h
    exact DECODE_encode_of_operandFree i hj
  · rw [decode_of_proc hw] at h
    cases h
    exact DECODE_of_proc hw
  · rw [decode_of_procraw hw] at h
    cases h
    exact DECODE_of_procraw hw
  · rw [decode_of_not_LEGAL hw] at h
    cases h

theorem exists_decode_of_LEGAL {w : Word} (h : LEGAL w = true) : ∃ i, decode w = .instr i := by
  rcases word_cases w with ⟨i, hi, rfl⟩ | hw | hw | hw
  · exact ⟨i, decode_encode_of_operandFree i hi⟩
  · exact ⟨_, decode_of_proc hw⟩
  · exact ⟨_, decode_of_procraw hw⟩
  · rw [hw] at h
    cases h

/-- A command without operand has one word only (R75). -/
theorem eq_encode_of_decode {w : Word} {i : Instr} (hi : i ∈ operandFree) (h : decode w = .instr i) : w = encode i := by
  rcases word_cases w with ⟨j, hj, rfl⟩ | hw | hw | hw
  · rw [decode_encode_of_operandFree j hj] at h
    cases h
    rfl
  · rw [decode_of_proc hw] at h
    cases h
    simp [operandFree] at hi
  · rw [decode_of_procraw hw] at h
    cases h
    simp [operandFree] at hi
  · rw [decode_of_not_LEGAL hw] at h
    cases h

end Sys2Proof

namespace Sys2Proof.Machine

open Sys2Proof.Safety

/-! ### The STATUS and INFO words (R27, R28) -/

theorem getLsbD_eq_of_toNat {w : Word} {n : Nat} {b : Bool} (h : w.toNat / 2 ^ n % 2 = b.toNat) : w.getLsbD n = b := by
  rw [← BitVec.testBit_toNat, Nat.testBit_eq_decide_div_mod_eq, h]
  cases b <;> rfl

/-- Settles O23: the fields are read off the STATUS word as a number. -/
theorem statusWordFields : Obligations.StatusWordFields := by
  intro S
  have hovr := S.OVR_CNT.isLt
  have hsat := S.SAT.toNat_lt
  have herr := S.ERR.toNat_lt
  have hready := S.READY.toNat_lt
  refine ⟨getLsbD_eq_of_toNat ?_, getLsbD_eq_of_toNat ?_, getLsbD_eq_of_toNat ?_, BitVec.eq_of_toNat_eq ?_,
    BitVec.eq_of_toNat_eq ?_⟩ <;>
    simp only [BitVec.extractLsb'_toNat, STATUS_WORD_toNat, Nat.shiftRight_eq_div_pow, BitVec.toNat_ofNat] <;>
    omega

/-- A well-formed build's length fits the INFO word's eight bits (R6, R28). -/
theorem LEN_lt_of_wellFormed {b : Build} (h : b.wellFormed = true) : b.LEN < 256 := by
  obtain ⟨_, hle, _⟩ := Build.wellFormed_iff.mp h
  have hmax : b.STRUCT.maxLen ≤ 64 := by cases b.STRUCT <;> decide
  omega

theorem code_lt (k : Struct) : k.code < 16 := by cases k <;> decide

/-- Settles O24: the fields are read off the INFO word as a number. -/
theorem infoWordFields : Obligations.InfoWordFields := by
  intro b hb
  have hlen := LEN_lt_of_wellFormed hb
  have hcode := code_lt b.STRUCT
  have hinfo := INFO_WORD_toNat b
  refine ⟨?_, ?_, BitVec.eq_of_toNat_eq ?_, BitVec.eq_of_toNat_eq ?_⟩ <;>
    rw [BitVec.extractLsb'_toNat, hinfo, Nat.shiftRight_eq_div_pow]
  · trans b.STRUCT.code
    · omega
    · rfl
  · trans b.LEN
    · omega
    · rfl
  · rw [BitVec.toNat_ofNat]; omega
  · rw [BitVec.toNat_ofNat]; omega

/-! ### After reset (R36) and over a run (R33) -/

theorem resetOf_inv {b : Build} (hb : b.wellFormed = true) : Inv (State.resetOf b) :=
  inv_of_running hb (afterReset_fits b) rfl

/-- Settles O41: after reset the engine is running with a filter state of the build's shape. -/
theorem resetMeetsTheInvariant : Obligations.ResetMeetsTheInvariant :=
  ⟨fun _ => resetOf_inv, resetOf_inv (by decide)⟩

/-- Settles O42, by induction on the number of steps. -/
theorem noEventChangesTheBuild : Obligations.NoEventChangesTheBuild := by
  intro n
  induction n with
  | zero => intro s t h; cases h; rfl
  | succ n ih =>
    intro s t h
    obtain ⟨u, hu, ht⟩ := runSteps_succ_cases h
    exact (ih u t ht).trans (step_build hu)

/-! ### The filter state does not show (R37) -/

/-- `S` with another filter state. -/
def Engine.withFilter (S : Engine) (f : FilterState) : Engine := { S with filter := f }

theorem TICK_withFilter (S : Engine) (f : FilterState) : TICK (S.withFilter f) = (TICK S).withFilter f := by
  cases h : S.READY <;> simp [TICK, Engine.withFilter, h]

/-- A command other than PROC and PROCRAW neither reads nor writes the filter state. -/
theorem effectOn_withFilter (b : Build) {i : Instr} (hp : ∀ x, i ≠ .proc x) (hr : ∀ raw, i ≠ .procraw raw)
    (S : Engine) (f : FilterState) :
    effectOn b i (S.withFilter f) = (effectOn b i S).withFilter f ∧ responseOf b i (S.withFilter f) = responseOf b i S := by
  cases i with
  | proc x => exact absurd rfl (hp x)
  | procraw raw => exact absurd rfl (hr raw)
  | nop | status | ack | clrst | info => exact ⟨rfl, rfl⟩

theorem wordEffect_of_instr {w : Word} {i : Instr} (h : decode w = .instr i) (b : Build) (S : Engine) :
    wordEffect b w S = effectOn b i S := by simp only [wordEffect, h]

theorem wordResponse_of_instr {w : Word} {i : Instr} (h : decode w = .instr i) (b : Build) (S : Engine) :
    wordResponse b w S = responseOf b i S := by simp only [wordResponse, h]

theorem wordEffect_of_illegal {w : Word} {c : IllegalCause} (h : decode w = .illegal c) (b : Build) (S : Engine) :
    wordEffect b w S = { S with ERR := true } := by simp only [wordEffect, h]

theorem wordResponse_of_illegal {w : Word} {c : IllegalCause} (h : decode w = .illegal c) (b : Build) (S : Engine) :
    wordResponse b w S = 0 := by simp only [wordResponse, h]

/-- No word but those of PROC and PROCRAW reads or writes the filter state. -/
theorem wordEffect_withFilter (b : Build) {w : Word} (hp : ∀ x, DECODE w ≠ some (.proc x))
    (hr : ∀ raw, DECODE w ≠ some (.procraw raw)) (S : Engine) (f : FilterState) :
    wordEffect b w (S.withFilter f) = (wordEffect b w S).withFilter f ∧
      wordResponse b w (S.withFilter f) = wordResponse b w S := by
  cases hd : decode w with
  | illegal c => simp [wordEffect_of_illegal hd, wordResponse_of_illegal hd, Engine.withFilter]
  | instr i =>
    rw [DECODE_of_decode hd] at hp hr
    simp only [wordEffect_of_instr hd, wordResponse_of_instr hd]
    exact effectOn_withFilter b (fun x h => hp x (congrArg some h)) (fun raw h => hr raw (congrArg some h)) S f

/-- Settles O32: the word's effect and its response, and the TICK, do not read the filter state. -/
theorem filterStateCannotBeRead : Obligations.FilterStateCannotBeRead := by
  intro s f w hp hr
  obtain ⟨hS, hresp⟩ := wordEffect_withFilter s.build hp hr s.S f
  refine ⟨_, runCommand_eq w s, ?_, congrArg s.withS (TICK_withFilter s.S f), rfl⟩
  rw [runCommand_eq]
  show _ = Host.Outcome.next (State.mk _ _ ((wordEffect s.build w s.S).withFilter f) _ _ _ _ _)
  rw [← hS, ← hresp]
  rfl

/-! ### What one step does to `S` -/

/-- `S` once the word that the next step accepts has run, if it accepts one. -/
def State.afterWord (s : State) : Engine :=
  match accepted s with
  | some w => wordEffect s.build w s.S
  | none => s.S

theorem afterWord_of_accepted {s : State} {w : Word} (h : accepted s = some w) :
    s.afterWord = wordEffect s.build w s.S := by simp only [State.afterWord, h]

theorem afterWord_of_none {s : State} (h : accepted s = none) : s.afterWord = s.S := by
  simp only [State.afterWord, h]

/-- Only a turn of the host accepts a word. -/
theorem accepted_of_other {s : State} {e : Event} {es : List Event} (hs : s.schedule = e :: es)
    (he : e ≠ .issue ∧ e ≠ .issueTick) : accepted s = none := by
  unfold accepted
  rw [hs]
  split <;> simp_all

theorem accepted_of_not_running {s : State} (h : s.phase ≠ .running) : accepted s = none := by
  have hready : s.cmdReady = false := by simp [State.cmdReady, h]
  unfold accepted
  split <;> simp [hready]

theorem replacesS_of_accepted {s : State} {w : Word} (h : accepted s = some w) : replacesS s = false := by
  unfold replacesS
  split
  · rename_i hs; rw [accepted_of_other hs (by simp)] at h; cases h
  · rename_i hs; rw [accepted_of_other hs (by simp)] at h; cases h
  · rfl

/-- The host's turn on the port runs the accepted word on `S`, or does nothing to it. -/
theorem issued_S {s : State} {e : Event} {es : List Event} (hp : s.phase = .running) (hs : s.schedule = e :: es)
    (he : e = .issue ∨ e = .issueTick) : (State.issued { s with schedule := es }).S = s.afterWord := by
  have hacc : accepted s = if s.cmdReady then s.commands.head? else none := by
    unfold accepted
    rcases he with rfl | rfl <;> rw [hs]
  unfold State.issued State.afterWord
  rw [hacc]
  simp only [State.cmdReady, hp]
  cases s.rsp with
  | some r => rfl
  | none => cases s.commands <;> rfl

/-- A release of reset does not change `S`: in reset it has the reset values already (log 7, log 8). -/
theorem leaveReset_S {s : State} (hI : Inv s) : s.leaveReset.S = s.S := by
  obtain ⟨_, _, _, hreset⟩ := hI
  unfold State.leaveReset
  split
  · rename_i hp; exact (hreset hp).symm
  · rfl
  · rfl

/-- The next event is a TICK that takes effect, alone or in a command's cycle. -/
def State.ticks (s : State) : Prop :=
  s.phase = .running ∧ ∃ es, s.schedule = .tick :: es ∨ s.schedule = .issueTick :: es

/-- All that a step does to `S`, where it does not replace it: the accepted word runs, and a TICK comes after it where
the event is one (a close edge is one or none, R64). -/
theorem step_S_cases {s t : State} (hI : Inv s) (h : step s = .next t) (hr : replacesS s = false) :
    (t.S = s.afterWord ∧ ¬ s.ticks) ∨ (t.S = TICK s.afterWord ∧ s.phase = .running ∧ bringsTick s = true) := by
  obtain ⟨_, ⟨hs, rfl⟩ | ⟨e, es, hs, ⟨he, rfl⟩ | ⟨_, hp, rfl⟩ | ⟨he, hp, rfl⟩⟩⟩ := step_cases h
  · left
    exact ⟨(afterWord_of_none (by simp [accepted, hs])).symm, by simp [State.ticks, hs]⟩
  · left
    cases e with
    | resetRelease =>
      rw [afterWord_of_none (accepted_of_other hs (by simp))]
      exact ⟨leaveReset_S (s := { s with schedule := es }) hI, by simp [State.ticks, hs]⟩
    | resetAssert | powerCycle => simp [replacesS, hs] at hr
    | issue | take | tick | issueTick | closeEdge => cases he
  · left
    exact ⟨(afterWord_of_none (s := s) (accepted_of_not_running (by simp [hp]))).symm, by simp [State.ticks, hp]⟩
  · cases e with
    | issue => exact .inl ⟨issued_S hp hs (.inl rfl), by simp [State.ticks, hs]⟩
    | issueTick => exact .inr ⟨congrArg TICK (issued_S hp hs (.inr rfl)), hp, by simp [bringsTick, hs]⟩
    | take =>
      rw [afterWord_of_none (accepted_of_other hs (by simp))]
      exact .inl ⟨deliver_S _, by simp [State.ticks, hs]⟩
    | tick =>
      rw [afterWord_of_none (accepted_of_other hs (by simp))]
      exact .inr ⟨rfl, hp, by simp [bringsTick, hs]⟩
    | closeEdge =>
      rw [afterWord_of_none (accepted_of_other hs (by simp))]
      rcases closeEdge_S { s with schedule := es } with hS | hS
      · exact .inl ⟨hS, by simp [State.ticks, hs]⟩
      · exact .inr ⟨hS, hp, by simp [bringsTick, hs]⟩
    | resetAssert | resetRelease | powerCycle => cases he

/-- Asserting reset, and releasing it in reset, leave the values of R36. -/
theorem step_S_of_reset {s t : State} {es : List Event} (h : step s = .next t)
    (hs : s.schedule = .resetAssert :: es ∨ (s.phase = .inReset ∧ s.schedule = .resetRelease :: es)) :
    t.S = Engine.afterReset s.build := by
  obtain ⟨hb, _⟩ := step_cases h
  rcases hs with hs | ⟨hp, hs⟩
  · rw [step_eq hb hs] at h
    cases h
    rfl
  · rw [step_eq hb hs] at h
    cases h
    simp only [State.leaveReset, hp]

/-- A step that brings no TICK runs the accepted word on `S` and does nothing else to it. -/
theorem step_S_of_no_tick {s t : State} (hI : Inv s) (h : step s = .next t) (hr : replacesS s = false)
    (hb : bringsTick s = false) : t.S = s.afterWord := by
  rcases step_S_cases hI h hr with ⟨hS, _⟩ | ⟨_, _, hT⟩
  · exact hS
  · rw [hb] at hT
    cases hT

/-- A TICK writes no flag but `READY`, so `ERR` and `SAT` are what the accepted word leaves. -/
theorem step_ERR_SAT {s t : State} (hI : Inv s) (h : step s = .next t) (hr : replacesS s = false) :
    t.S.ERR = s.afterWord.ERR ∧ t.S.SAT = s.afterWord.SAT := by
  rcases step_S_cases hI h hr with ⟨hS, _⟩ | ⟨hS, _⟩ <;> simp [hS]

/-! ### What the accepted word does to each flag -/

theorem effectOn_READY (b : Build) {i : Instr} (hi : i ≠ .ack) (S : Engine) : (effectOn b i S).READY = S.READY := by
  cases i with
  | ack => exact absurd rfl hi
  | nop | status | proc | procraw | clrst | info => rfl

theorem effectOn_ERR (b : Build) {i : Instr} (hi : i ≠ .clrst) (S : Engine) : (effectOn b i S).ERR = S.ERR := by
  cases i with
  | clrst => exact absurd rfl hi
  | nop | status | ack | proc | procraw | info => rfl

/-- No command but CLRST clears `SAT`, and none but PROC and PROCRAW sets it. -/
theorem effectOn_SAT (b : Build) {i : Instr} (hi : i ≠ .clrst) (S : Engine) :
    (S.SAT = true → (effectOn b i S).SAT = true) ∧
    ((∀ x, i ≠ .proc x) → (∀ raw, i ≠ .procraw raw) → (effectOn b i S).SAT = S.SAT) := by
  cases i with
  | clrst => exact absurd rfl hi
  | proc x => exact ⟨fun h => by simp [effectOn, h], fun hp => absurd rfl (hp x)⟩
  | procraw raw => exact ⟨fun h => by simp [effectOn, h], fun _ hr => absurd rfl (hr raw)⟩
  | nop | status | ack | info => exact ⟨id, fun _ _ => rfl⟩

theorem afterWord_of_instr {s : State} {w : Word} {i : Instr} (hw : accepted s = some w) (hd : decode w = .instr i) :
    s.afterWord = effectOn s.build i s.S := by
  rw [afterWord_of_accepted hw, wordEffect_of_instr hd]

theorem afterWord_of_illegal {s : State} {w : Word} (hw : accepted s = some w) (hl : LEGAL w = false) :
    s.afterWord = { s.S with ERR := true } := by
  rw [afterWord_of_accepted hw, wordEffect_of_illegal (decode_of_not_LEGAL hl)]

/-- Where the one word of `j` is not accepted, no word is, or an illegal one, or that of a command other than `j`. -/
theorem accepted_cases (s : State) {j : Instr} (hj : j ∈ operandFree) (hne : accepted s ≠ some (encode j)) :
    accepted s = none ∨ (∃ w, accepted s = some w ∧ LEGAL w = false) ∨
      ∃ w i, accepted s = some w ∧ decode w = .instr i ∧ i ≠ j := by
  cases ha : accepted s with
  | none => exact .inl rfl
  | some w =>
    right
    cases hl : LEGAL w with
    | false => exact .inl ⟨w, rfl, hl⟩
    | true =>
      obtain ⟨i, hd⟩ := exists_decode_of_LEGAL hl
      refine .inr ⟨w, i, rfl, hd, ?_⟩
      rintro rfl
      exact hne (ha.trans (congrArg some (eq_encode_of_decode hj hd)))

/-- The accepted word does not write `READY` unless it is ACK (R23, R63). -/
theorem afterWord_READY {s : State} (h : accepted s ≠ some 0x20000000#32) : s.afterWord.READY = s.S.READY := by
  rcases accepted_cases s (j := .ack) (by decide) h with ha | ⟨w, ha, hl⟩ | ⟨w, i, ha, hd, hi⟩
  · rw [afterWord_of_none ha]
  · rw [afterWord_of_illegal ha hl]
  · rw [afterWord_of_instr ha hd, effectOn_READY _ hi]

theorem afterWord_of_ack {s : State} (h : accepted s = some 0x20000000#32) :
    s.afterWord = { s.S with READY := false } :=
  afterWord_of_instr h (i := .ack) (by decide)

theorem afterWord_of_clrst {s : State} (h : accepted s = some 0x50000000#32) :
    s.afterWord = { s.S with ERR := false, SAT := false, OVR_CNT := 0 } :=
  afterWord_of_instr h (i := .clrst) (by decide)

/-- A legal accepted word does not write `ERR` unless it is CLRST (R24, R63). -/
theorem afterWord_ERR {s : State} (h : accepted s ≠ some 0x50000000#32) (hl : ∀ w, accepted s = some w → LEGAL w = true) :
    s.afterWord.ERR = s.S.ERR := by
  rcases accepted_cases s (j := .clrst) (by decide) h with ha | ⟨w, ha, hl'⟩ | ⟨w, i, ha, hd, hi⟩
  · rw [afterWord_of_none ha]
  · rw [hl w ha] at hl'
    cases hl'
  · rw [afterWord_of_instr ha hd, effectOn_ERR _ hi]

/-- The accepted word does not clear `SAT` unless it is CLRST, nor set it unless it is PROC or PROCRAW (R25, R63). -/
theorem afterWord_SAT {s : State} (h : accepted s ≠ some 0x50000000#32) :
    (s.S.SAT = true → s.afterWord.SAT = true) ∧
    ((∀ w x raw, accepted s = some w → DECODE w ≠ some (.proc x) ∧ DECODE w ≠ some (.procraw raw)) →
      s.afterWord.SAT = s.S.SAT) := by
  rcases accepted_cases s (j := .clrst) (by decide) h with ha | ⟨w, ha, hl⟩ | ⟨w, i, ha, hd, hi⟩
  · rw [afterWord_of_none ha]
    exact ⟨id, fun _ => rfl⟩
  · rw [afterWord_of_illegal ha hl]
    exact ⟨id, fun _ => rfl⟩
  · rw [afterWord_of_instr ha hd]
    obtain ⟨hkeep, hsame⟩ := effectOn_SAT s.build hi s.S
    refine ⟨hkeep, fun hf => hsame (fun x hx => ?_) (fun raw hraw => ?_)⟩
    · exact (hf w x 0 ha).1 (hx ▸ DECODE_of_decode hd)
    · exact (hf w 0 raw ha).2 (hraw ▸ DECODE_of_decode hd)

/-! ### Who writes `READY`, `ERR` and `SAT` (R23, R24, R25) -/

/-- Settles O33: the step is the accepted word's effect and, where the event is one, a TICK after it (`step_S_cases`). -/
theorem readyIsWrittenOnlyByTickAckAndReset : Obligations.ReadyIsWrittenOnlyByTickAckAndReset := by
  intro s t hI h
  refine ⟨fun hr hb ha => ?_, fun hb ha => ?_, fun es hp hs => ?_, fun es hs => ?_, fun hp hr => ?_, fun es hs => ?_⟩
  · rw [step_S_of_no_tick hI h hr hb, afterWord_READY ha]
  · rw [step_S_of_no_tick hI h (replacesS_of_accepted ha) hb, afterWord_of_ack ha]
  · have hr : replacesS s = false := by rcases hs with hs | hs <;> simp [replacesS, hs]
    rcases step_S_cases hI h hr with ⟨_, hn⟩ | ⟨hS, _⟩
    · exact absurd ⟨hp, es, hs⟩ hn
    · rw [hS, TICK_READY]
  · rw [step_S_of_reset h hs]
    rfl
  · rcases step_S_cases hI h hr with ⟨hS, _⟩ | ⟨_, hrun, _⟩
    · rw [hS, afterWord_of_none (accepted_of_not_running (by simp [hp]))]
    · rw [hp] at hrun
      cases hrun
  · rcases step_S_cases hI h (by simp [replacesS, hs]) with ⟨hS, _⟩ | ⟨hS, _⟩
    · left
      rw [hS, afterWord_of_none (accepted_of_other hs (by simp))]
    · right
      rw [hS, TICK_READY]

/-- Settles O34: no TICK writes `ERR`, so it is what the accepted word leaves, or the reset value. -/
theorem errIsWrittenOnlyByIllegalClrstAndReset : Obligations.ErrIsWrittenOnlyByIllegalClrstAndReset := by
  intro s t hI h
  refine ⟨fun w ha hl => ?_, fun ha => ?_, fun hr ha hl => ?_, fun es hs => ?_⟩
  · rw [(step_ERR_SAT hI h (replacesS_of_accepted ha)).1, afterWord_of_illegal ha hl]
  · rw [(step_ERR_SAT hI h (replacesS_of_accepted ha)).1, afterWord_of_clrst ha]
  · rw [(step_ERR_SAT hI h hr).1, afterWord_ERR ha hl]
  · rw [step_S_of_reset h hs]
    rfl

/-- Settles O35: no TICK writes `SAT`, so it is what the accepted word leaves, or the reset value. -/
theorem satIsWrittenOnlyByFilteringClrstAndReset : Obligations.SatIsWrittenOnlyByFilteringClrstAndReset := by
  intro s t hI h
  refine ⟨fun ha => ?_, fun hr ha hset => ?_, fun hr ha hf => ?_, fun es hs => ?_⟩
  · rw [(step_ERR_SAT hI h (replacesS_of_accepted ha)).2, afterWord_of_clrst ha]
  · rw [(step_ERR_SAT hI h hr).2, (afterWord_SAT ha).1 hset]
  · rw [(step_ERR_SAT hI h hr).2, (afterWord_SAT ha).2 hf]
  · rw [step_S_of_reset h hs]
    rfl

end Sys2Proof.Machine
end

section
/-! What reaches the host through the ports (20_memory.md): the ports while running, a TICK in a command's cycle, one response
for each accepted command, and the port machine against the atomic event order. -/

namespace Sys2Proof.Machine

open Sys2Proof.Safety

/-! ### One event while running -/

/-- While running, a step is the effect of the next event. -/
theorem step_of_running {s : State} {e : Event} {es : List Event} (hb : s.build.wellFormed = true)
    (hp : s.phase = .running) (hs : s.schedule = e :: es) (he : e.isReset = false) :
    step s = .next (State.after e { s with schedule := es }) := by
  rw [step_eq hb hs, applyEvent_eq]
  simp only [he, hp, Bool.false_eq_true, if_false]

theorem deliver_of_waiting {s : State} {r : Word} (hr : s.rsp = some r) :
    s.deliver = { s with rsp := none, responses := s.responses ++ [r] } := by
  simp only [State.deliver, hr]

theorem deliver_of_empty {s : State} (hr : s.rsp = none) : s.deliver = s := by
  simp only [State.deliver, hr]

theorem outputs_of_running {s : State} (hp : s.phase = .running) :
    s.outputs = some ⟨s.cmdReady, s.rsp.isSome, s.rsp, s.readyO⟩ := by
  simp only [State.outputs, hp]

theorem cmdReady_iff_of_running {s : State} (hp : s.phase = .running) : s.cmdReady = true ↔ s.rsp = none := by
  simp [State.cmdReady, hp]

/-- A close edge is one TICK or none, and one free value is used up (R64, log 10). -/
theorem closeEdge_cases (s : State) :
    s.closeEdge = { s with choices := s.choices + 1 } ∨ s.closeEdge = { s.tick with choices := s.choices + 1 } := by
  unfold State.closeEdge
  split
  · exact .inl rfl
  · exact .inr rfl

/-- Settles O11: the two cases of `closeEdge_cases`. -/
theorem closeEdgeIsOneTickOrNone : Obligations.CloseEdgeIsOneTickOrNone := by
  intro s es hb hp hs
  refine ⟨_, _, step_of_running hb hp hs rfl, step_of_running (s := { s with schedule := .tick :: es }) hb hp rfl rfl, ?_⟩
  exact closeEdge_cases { s with schedule := es }

/-- Settles O12: the ports of a running state, and what each event does while a response waits. -/
theorem waitingResponseStallsTheCommandPort : Obligations.WaitingResponseStallsTheCommandPort := by
  intro s hb hp
  refine ⟨⟨_, outputs_of_running hp, rfl, rfl, ?_, cmdReady_iff_of_running hp, rfl⟩, fun r es hr => ⟨?_, fun hs => ?_,
    fun hs => ?_, fun hs => ?_⟩⟩
  · exact Option.isSome_iff_ne_none
  · rw [← Bool.not_eq_true, cmdReady_iff_of_running hp, hr]
    exact Option.some_ne_none r
  · have hstalled : State.issued { s with schedule := es } = { s with schedule := es } :=
      issued_stalled (.inl (hr ▸ Option.some_ne_none r))
    rw [step_of_running hb hp hs rfl, State.after, hstalled]
  · exact step_of_running hb hp hs rfl
  · have htake : step s = .next { s with schedule := es, rsp := none, responses := s.responses ++ [r] } := by
      rw [step_of_running hb hp hs rfl, State.after, deliver_of_waiting (s := { s with schedule := es }) hr]
    exact ⟨_, htake, rfl, by simp [State.cmdReady, hp]⟩

/-! ### A TICK in a command's cycle (R58) -/

/-- The state once the offered word `w` has run, with the word and the host's turn taken off. -/
def State.afterOffer (s : State) (w : Word) (ws : List Word) (es : List Event) : State :=
  { s with
    commands := ws
    schedule := es
    S := wordEffect s.build w s.S
    rsp := some (wordResponse s.build w s.S) }

theorem step_eq_afterOffer {s : State} {w : Word} {ws : List Word} {es : List Event} (h : Offers s w ws es) :
    step s = .next (s.afterOffer w ws es) := by
  rw [step_of_offers h, runCommand_eq]
  rfl

/-- The command's step with a TICK in its cycle is the command's step with a TICK on top. -/
theorem step_issueTick_eq_afterOffer {s : State} {w : Word} {ws : List Word} {es : List Event}
    (h : Offers { s with schedule := .issue :: es } w ws es) (hs : s.schedule = .issueTick :: es) :
    step s = .next (s.afterOffer w ws es).tick := by
  obtain ⟨hb, hp, hr, hc, -⟩ := h
  rw [step_of_running (s := s) hb hp hs rfl, State.after, issued_accept (s := { s with schedule := es }) hr hc]
  rfl

/-- A TICK writes `READY` and `OVR_CNT` only (R100). -/
theorem TICK_eq (S : Engine) : TICK S = { S with READY := true, OVR_CNT := (TICK S).OVR_CNT } := by
  unfold TICK
  split
  · rename_i h; rw [← h]
  · rfl

/-- Settles O10: the TICK finds the state that the command leaves. -/
theorem tickInACommandsCycleComesAfterIt : Obligations.TickInACommandsCycleComesAfterIt := by
  intro s w ws es ho hs
  refine ⟨_, _, step_eq_afterOffer ho, step_issueTick_eq_afterOffer ho hs, congrArg (s.afterOffer w ws es).withS (TICK_eq _),
    TICK_OVR_CNT _, ?_, ?_⟩
  · rintro rfl
    have hack : decode 0x20000000#32 = .instr .ack := by decide
    simp [State.afterOffer, wordEffect_of_instr hack, wordResponse_of_instr hack, effectOn, responseOf]
  · rintro rfl
    have hclrst : decode 0x50000000#32 = .instr .clrst := by decide
    simp [State.afterOffer, wordEffect_of_instr hclrst, effectOn, overrunCount]

/-! ### The frame of the filter commands (R63) -/

/-- What committing the result of a filter step leaves of `S`. -/
theorem commitFilter_frame (b : Build) (S : Engine) (x : Int) (saturated : Bool) :
    let S' := commitFilter S (FILTER_STEP b S.filter x).filter saturated
    S'.READY = S.READY ∧ S'.ERR = S.ERR ∧ S'.OVR_CNT = S.OVR_CNT ∧ (S.SAT = true → S'.SAT = true) ∧
    (b.STRUCT ≠ .FIR → S'.filter.H = S.filter.H) ∧
    (b.STRUCT ≠ .IIR_DIRECT → S'.filter.XH = S.filter.XH ∧ S'.filter.YH = S.filter.YH) ∧
    (b.STRUCT ≠ .IIR_CASCADE → S'.filter.SEC = S.filter.SEC) :=
  ⟨rfl, rfl, rfl, fun h => by simp [h], FILTER_STEP_frame b S.filter x⟩

/-- Settles O30: each of the two commands changes only the response and, by a filter step, `S`. -/
theorem filterCommandsFrame : Obligations.FilterCommandsFrame := by
  intro i s t hi h
  rw [exec_eq] at h
  cases h
  refine ⟨rfl, rfl, rfl, rfl, rfl, rfl, ?_⟩
  rcases hi with ⟨x, rfl⟩ | ⟨raw, rfl⟩
  · exact commitFilter_frame s.build s.S x _
  · exact commitFilter_frame s.build s.S (NORM raw) _

/-! ### One response for each accepted command (R57) -/

/-- From `s` to `t` some words were accepted and some responses delivered, as many but for the one that waits. -/
def Accounts (s t : State) : Prop :=
  ∃ accepted delivered : List Word, s.commands = accepted ++ t.commands ∧ t.responses = s.responses ++ delivered ∧
    accepted.length + waiting s = delivered.length + waiting t

theorem accounts_of_same {s t : State} (hc : t.commands = s.commands) (hd : t.responses = s.responses)
    (hr : t.rsp = s.rsp) : Accounts s t :=
  ⟨[], [], by simp [hc], by simp [hd], by simp [waiting, hr]⟩

theorem Accounts.trans {s t u : State} (h₁ : Accounts s t) (h₂ : Accounts t u) : Accounts s u := by
  obtain ⟨a₁, d₁, hc₁, hd₁, hn₁⟩ := h₁
  obtain ⟨a₂, d₂, hc₂, hd₂, hn₂⟩ := h₂
  refine ⟨a₁ ++ a₂, d₁ ++ d₂, by simp [hc₁, hc₂], by simp [hd₁, hd₂], ?_⟩
  simp only [List.length_append]
  omega

/-- The host's turn accepts one word, whose response then waits, or nothing. -/
theorem issued_accounts (s : State) : Accounts s s.issued := by
  cases hr : s.rsp with
  | some r =>
    rw [issued_stalled (.inl (hr ▸ Option.some_ne_none r))]
    exact accounts_of_same rfl rfl rfl
  | none =>
    cases hc : s.commands with
    | nil =>
      rw [issued_stalled (.inr hc)]
      exact accounts_of_same rfl rfl rfl
    | cons w ws =>
      rw [issued_accept hr hc]
      exact ⟨[w], [], hc, by simp, by simp [waiting, hr]⟩

/-- A transfer on the response port delivers the response that waits, or nothing. -/
theorem deliver_accounts (s : State) : Accounts s s.deliver := by
  cases hr : s.rsp with
  | some r =>
    rw [deliver_of_waiting hr]
    exact ⟨[], [r], rfl, rfl, by simp [waiting, hr]⟩
  | none =>
    rw [deliver_of_empty hr]
    exact accounts_of_same rfl rfl rfl

theorem after_accounts {e : Event} (he : e.isReset = false) (s : State) : Accounts s (s.after e) := by
  cases e with
  | issue => exact issued_accounts s
  | take => exact deliver_accounts s
  | tick => exact accounts_of_same rfl rfl rfl
  | issueTick => exact (issued_accounts s).trans (accounts_of_same rfl rfl rfl)
  | closeEdge => exact accounts_of_same (closeEdge_commands s) (closeEdge_responses s) (closeEdge_rsp s)
  | resetAssert | resetRelease | powerCycle => cases he

theorem after_schedule {e : Event} (he : e.isReset = false) (s : State) : (s.after e).schedule = s.schedule := by
  cases e with
  | issue | issueTick => exact issued_schedule s
  | take => exact deliver_schedule s
  | tick => rfl
  | closeEdge => exact closeEdge_schedule s
  | resetAssert | resetRelease | powerCycle => cases he

/-- A step without an event of reset or power keeps the account, and such events do not come into the schedule. -/
theorem step_accounts {s t : State} (hn : ∀ e ∈ s.schedule, e.isReset = false) (h : step s = .next t) :
    Accounts s t ∧ ∀ e ∈ t.schedule, e.isReset = false := by
  obtain ⟨_, ⟨_, rfl⟩ | ⟨e, es, hs, hcase⟩⟩ := step_cases h
  · exact ⟨accounts_of_same rfl rfl rfl, hn⟩
  · rw [hs, List.forall_mem_cons] at hn
    obtain ⟨he, hes⟩ := hn
    rcases hcase with ⟨he', _⟩ | ⟨_, _, rfl⟩ | ⟨_, _, rfl⟩
    · rw [he] at he'
      cases he'
    · exact ⟨accounts_of_same rfl rfl rfl, hes⟩
    · rw [after_schedule he]
      exact ⟨after_accounts he { s with schedule := es }, hes⟩

theorem runSteps_accounts (n : Nat) {s t : State} (hn : ∀ e ∈ s.schedule, e.isReset = false)
    (h : runSteps n s = .next t) : Accounts s t := by
  induction n generalizing s with
  | zero => cases h; exact accounts_of_same rfl rfl rfl
  | succ n ih =>
    obtain ⟨u, hu, ht⟩ := runSteps_succ_cases h
    obtain ⟨hacc, hn'⟩ := step_accounts hn hu
    exact hacc.trans (ih hn' ht)

theorem isReset_eq_false_iff (e : Event) :
    e.isReset = false ↔ e ≠ .resetAssert ∧ e ≠ .resetRelease ∧ e ≠ .powerCycle := by
  cases e <;> decide

/-- Settles O13: every step keeps the account. -/
theorem eachAcceptedCommandHasOneResponse : Obligations.EachAcceptedCommandHasOneResponse :=
  fun n _ _ hn h => runSteps_accounts n (fun e he => (isReset_eq_false_iff e).mpr (hn e he)) h

/-! ### The atomic event order (R56) is the one the port machine gives -/

theorem DECODE_of_illegal {w : Word} {c : IllegalCause} (h : decode w = .illegal c) : DECODE w = none := by
  cases hl : LEGAL w with
  | false => simp [DECODE, hl]
  | true =>
    obtain ⟨i, hi⟩ := exists_decode_of_LEGAL hl
    rw [h] at hi
    cases hi

/-- R79's reading of a word and the machine's give the same effect and the same response. -/
theorem commandEffect_eq (b : Build) (w : Word) (S : Engine) :
    commandEffect b w S = (wordEffect b w S, wordResponse b w S) := by
  cases hd : decode w with
  | illegal c => rw [wordEffect_of_illegal hd, wordResponse_of_illegal hd, commandEffect, DECODE_of_illegal hd]
  | instr i =>
    rw [wordEffect_of_instr hd, wordResponse_of_instr hd, commandEffect, DECODE_of_decode hd]
    cases i with
    | procraw raw => simp only [Bool.or_assoc]; rfl
    | nop | status | ack | clrst | info | proc => rfl

/-- Where the run of a list of events ends: its `S` and responses, nothing left on the port or to come. -/
def State.afterRun (s : State) (es : List RunEvent) : State :=
  { s with
    commands := []
    schedule := []
    rsp := none
    S := (observe s.build es s.S).1
    responses := s.responses ++ (observe s.build es s.S).2 }

theorem afterRun_nil {s : State} (hr : s.rsp = none) (hc : s.commands = []) (hs : s.schedule = []) :
    s.afterRun [] = s := by
  cases s
  simp_all [State.afterRun, observe]

/-- The state once the word `w` has run and its response has been taken. -/
def State.afterCommand (s : State) (w : Word) (ws : List Word) (es : List Event) : State :=
  { s with
    commands := ws
    schedule := es
    S := wordEffect s.build w s.S
    responses := s.responses ++ [wordResponse s.build w s.S] }

/-- A command of a schedule takes two steps: the word is accepted and runs, and its response is taken. -/
theorem runSteps_command {s : State} {w : Word} {ws : List Word} {es : List Event} (n : Nat) (hb : s.build.wellFormed = true)
    (hp : s.phase = .running) (hr : s.rsp = none) (hc : s.commands = w :: ws) (hs : s.schedule = .issue :: .take :: es) :
    runSteps (n + 2) s = runSteps n (s.afterCommand w ws es) := by
  have hissue : step s = .next (s.afterOffer w ws (.take :: es)) := step_eq_afterOffer ⟨hb, hp, hr, hc, hs⟩
  have htake : step (s.afterOffer w ws (.take :: es)) = .next (s.afterCommand w ws es) := by
    rw [step_of_running (s := s.afterOffer w ws (.take :: es)) hb hp rfl rfl, State.after, deliver_of_waiting rfl,
      State.afterCommand, hr]
    rfl
  rw [runSteps_succ_of_next _ hissue, runSteps_succ_of_next _ htake]

/-- The commuting of the machine and the event order, from any running state with its response port free. -/
theorem runSteps_scheduleOf (es : List RunEvent) {s : State} (hb : s.build.wellFormed = true) (hp : s.phase = .running)
    (hr : s.rsp = none) (hc : s.commands = programOf es) (hs : s.schedule = scheduleOf es) :
    runSteps (scheduleOf es).length s = .next (s.afterRun es) := by
  induction es generalizing s with
  | nil =>
    rw [afterRun_nil hr hc hs]
    rfl
  | cons e es ih =>
    cases e with
    | command w =>
      have hend : (s.afterCommand w (programOf es) (scheduleOf es)).afterRun es = s.afterRun (.command w :: es) := by
        simp [State.afterRun, State.afterCommand, observe, commandEffect_eq]
      rw [← hend]
      exact (runSteps_command _ hb hp hr hc hs).trans (ih hb hp hr rfl rfl)
    | tick =>
      exact (runSteps_succ_of_next _ (step_of_running hb hp hs rfl)).trans
        (ih (s := State.tick { s with schedule := scheduleOf es }) hb hp hr hc rfl)

/-- The run of R230 from the start, with its observation written out. -/
theorem runSteps_startOf {b : Build} (hb : b.wellFormed = true) (es : List RunEvent) :
    runSteps (State.startOf b es).schedule.length (State.startOf b es) = .next ((State.startOf b es).afterRun es) :=
  runSteps_scheduleOf es (s := State.startOf b es) hb rfl rfl rfl rfl

/-! ### Where a run ends (R230) -/

/-- A run leaves out TICKs after its last command and nothing else. -/
theorem eq_untilLastCommand_append (es : List RunEvent) :
    ∃ n : Nat, es = untilLastCommand es ++ List.replicate n .tick := by
  induction es with
  | nil => exact ⟨0, rfl⟩
  | cons e es ih =>
    obtain ⟨n, hn⟩ := ih
    cases e with
    | command w => exact ⟨n, congrArg (RunEvent.command w :: ·) hn⟩
    | tick =>
      rw [untilLastCommand_tick]
      split
      · rename_i hnil
        rw [hnil] at hn
        exact ⟨n + 1, congrArg (RunEvent.tick :: ·) hn⟩
      · exact ⟨n, congrArg (RunEvent.tick :: ·) hn⟩

theorem untilLastCommand_idem (es : List RunEvent) : untilLastCommand (untilLastCommand es) = untilLastCommand es := by
  induction es with
  | nil => rfl
  | cons e es ih =>
    cases e with
    | command w => simp [ih]
    | tick =>
      rw [untilLastCommand_tick]
      split
      · rfl
      · rename_i h
        rw [untilLastCommand_tick, ih, if_neg h]

/-- A run that is not empty ends with a command. -/
theorem untilLastCommand_ends (es : List RunEvent) :
    untilLastCommand es = [] ∨ ∃ (first : List RunEvent) (w : Word), untilLastCommand es = first ++ [.command w] := by
  induction es with
  | nil => exact .inl rfl
  | cons e es ih =>
    cases e with
    | command w =>
      right
      rcases ih with h | ⟨first, v, h⟩
      · exact ⟨[], w, by simp [h]⟩
      · exact ⟨.command w :: first, v, by simp [h]⟩
    | tick =>
      rw [untilLastCommand_tick]
      rcases ih with h | ⟨first, v, h⟩
      · exact .inl (if_pos h)
      · exact .inr ⟨.tick :: first, v, by simp [h]⟩

theorem programOf_append_ticks (es : List RunEvent) (n : Nat) :
    programOf (es ++ List.replicate n .tick) = programOf es := by
  induction es with
  | nil =>
    induction n with
    | zero => rfl
    | succ n ih => exact ih
  | cons e es ih =>
    cases e with
    | command w => exact congrArg (w :: ·) ih
    | tick => exact ih

/-- TICKs after the last event of a list add no response. -/
theorem observe_responses_append_ticks (b : Build) (es : List RunEvent) (n : Nat) (S : Engine) :
    (observe b (es ++ List.replicate n .tick) S).2 = (observe b es S).2 := by
  induction es generalizing S with
  | nil =>
    induction n generalizing S with
    | zero => rfl
    | succ n ih => exact ih (TICK S)
  | cons e es ih =>
    cases e with
    | command w => exact congrArg (_ :: ·) (ih _)
    | tick => exact ih (TICK S)

theorem programOf_untilLastCommand (es : List RunEvent) : programOf (untilLastCommand es) = programOf es := by
  obtain ⟨n, hn⟩ := eq_untilLastCommand_append es
  rw [← programOf_append_ticks (untilLastCommand es) n, ← hn]

theorem observe_responses_untilLastCommand (b : Build) (es : List RunEvent) (S : Engine) :
    (observe b es S).2 = (observe b (untilLastCommand es) S).2 := by
  obtain ⟨n, hn⟩ := eq_untilLastCommand_append es
  rw [← observe_responses_append_ticks b (untilLastCommand es) n, ← hn]

/-- Settles O14: the machine commutes with the event order (`runSteps_startOf`), and the run that the list holds leaves out only
TICKs that add no response. -/
theorem portMachineRefinesTheEventOrder : Obligations.PortMachineRefinesTheEventOrder :=
  fun b es hb =>
    ⟨_, _, runSteps_startOf hb es, rfl, rfl, rfl, rfl, rfl, runSteps_startOf hb (untilLastCommand es), rfl, rfl, rfl, rfl, rfl,
      ⟨programOf_untilLastCommand es, untilLastCommand_idem es⟩, untilLastCommand_ends es, eq_untilLastCommand_append es,
      observe_responses_untilLastCommand b es _⟩

end Sys2Proof.Machine
end

section
/-! The encoding (30_encoding.md): decoding and encoding are inverse (R72 to R76), the decoder is `DECODE` (R79), the opcode map
row by row (R72 to R74), the reserved opcodes (R77), and what each line of a host program assembles to (R80, R81). -/

namespace Sys2Proof

open Sys2Proof.Machine Sys2Proof.Safety

/-! ### A word by its fields, and the words of PROC and PROCRAW -/

/-- R70: a word is its three fields. -/
theorem toNat_eq_fields (w : Word) :
    w.toNat = 2 ^ 28 * (opcField w).toNat + 2 ^ 16 * (rsvField w).toNat + (dataField w).toNat := by
  have hw := w.isLt
  simp only [opcField, rsvField, dataField, BitVec.extractLsb'_toNat, Nat.shiftRight_eq_div_pow]
  omega

theorem dataField_toNat (w : Word) : (dataField w).toNat = w.toNat % 2 ^ 16 := by simp [dataField]

theorem rawField_toNat (w : Word) : (rawField w).toNat = w.toNat % 2 ^ 12 := by simp [rawField]

theorem procOperandOk_iff {x : Int} : procOperandOk x = true ↔ InSampleRange x := by
  simp [procOperandOk]

theorem procrawOperandOk_iff {raw : Nat} : procrawOperandOk raw = true ↔ raw ≤ 4095 := by
  simp [procrawOperandOk]

/-- A command's word as a number, from its fields (`Laws.Fields`). -/
theorem encode_toNat {i : Instr} (h : Laws.Fields.Statement i) (hi : i.wellFormed = true) :
    (encode i).toNat = 2 ^ 28 * Laws.Fields.opcode i + (Laws.Fields.data i).toNat := by
  obtain ⟨hopc, hrsv, hdata⟩ := h hi
  rw [toNat_eq_fields, hopc, hrsv, hdata]
  rfl

theorem encode_proc_toNat {x : Int} (hx : InSampleRange x) :
    (encode (.proc x)).toNat = 0x30000000 + (BitVec.ofInt 16 x).toNat :=
  encode_toNat (Laws.Fields.proc x) (procOperandOk_iff.mpr hx)

theorem encode_procraw_toNat {raw : Nat} (hr : raw ≤ 4095) : (encode (.procraw raw)).toNat = 0x40000000 + raw := by
  have h : (encode (.procraw raw)).toNat = 0x40000000 + (BitVec.ofNat 16 raw).toNat :=
    encode_toNat (Laws.Fields.procraw raw) (procrawOperandOk_iff.mpr hr)
  rw [h, BitVec.toNat_ofNat, Nat.mod_eq_of_lt (by omega)]

theorem encode_proc_high {x : Int} (hx : InSampleRange x) : (encode (.proc x)).toNat / 2 ^ 16 = 0x3000 := by
  have hlt := (BitVec.ofInt 16 x).isLt
  rw [encode_proc_toNat hx]
  omega

theorem encode_procraw_high {raw : Nat} (hr : raw ≤ 4095) : (encode (.procraw raw)).toNat / 2 ^ 12 = 0x40000 := by
  rw [encode_procraw_toNat hr]
  omega

/-! ### Decoding after encoding -/

theorem decode_encode_proc {x : Int} (hx : InSampleRange x) : decode (encode (.proc x)) = .instr (.proc x) := by
  obtain ⟨-, -, (hdata : dataField (encode (.proc x)) = BitVec.ofInt 16 x)⟩ :=
    Laws.Fields.proc x (procOperandOk_iff.mpr hx)
  have hback : (BitVec.ofInt 16 x).toInt = x := toInt_bits16 hx
  rw [decode_of_proc (encode_proc_high hx), hdata, hback]

theorem decode_encode_procraw {raw : Nat} (hr : raw ≤ 4095) : decode (encode (.procraw raw)) = .instr (.procraw raw) := by
  have hback : (0x40000000 + raw) % 2 ^ 12 = raw := by omega
  rw [decode_of_procraw (encode_procraw_high hr), encode_procraw_toNat hr, hback]

/-- Settles O1, command by command: the words without operand are decoded one by one, those of PROC and PROCRAW by their
fields. -/
theorem decodeOfEncodeIsTheCommand : Obligations.DecodeOfEncodeIsTheCommand := by
  intro i hi
  cases i with
  | proc x => exact decode_encode_proc (procOperandOk_iff.mp hi)
  | procraw raw => exact decode_encode_procraw (procrawOperandOk_iff.mp hi)
  | nop | status | ack | clrst | info => exact decode_encode_of_operandFree _ (by decide)

/-! ### Encoding after decoding -/

theorem encode_proc_of_word {w : Word} (h : w.toNat / 2 ^ 16 = 0x3000) : encode (.proc (dataField w).toInt) = w := by
  apply BitVec.eq_of_toNat_eq
  rw [encode_proc_toNat (sample_toInt_inRange _), BitVec.ofInt_toInt, dataField_toNat]
  omega

theorem encode_procraw_of_word {w : Word} (h : w.toNat / 2 ^ 12 = 0x40000) : encode (.procraw (w.toNat % 2 ^ 12)) = w := by
  apply BitVec.eq_of_toNat_eq
  rw [encode_procraw_toNat (by omega)]
  omega

theorem wellFormed_of_operandFree : ∀ i ∈ operandFree, i.wellFormed = true := by decide

/-- Settles O2, by the four kinds of word (`word_cases`). -/
theorem decodedWordIsItsOneEncoding : Obligations.DecodedWordIsItsOneEncoding := by
  intro w i h
  rcases word_cases w with ⟨j, hj, rfl⟩ | hw | hw | hw
  · rw [decode_encode_of_operandFree j hj] at h
    cases h
    exact ⟨rfl, wellFormed_of_operandFree i hj⟩
  · rw [decode_of_proc hw] at h
    cases h
    exact ⟨encode_proc_of_word hw, procOperandOk_iff.mpr (sample_toInt_inRange _)⟩
  · rw [decode_of_procraw hw] at h
    cases h
    exact ⟨encode_procraw_of_word hw, procrawOperandOk_iff.mpr (by omega)⟩
  · rw [decode_of_not_LEGAL hw] at h
    cases h

/-- A word decodes to a command exactly when it is the word of that command and its operand is in range. -/
theorem decode_eq_instr_iff {w : Word} {i : Instr} : decode w = .instr i ↔ w = encode i ∧ i.wellFormed = true := by
  constructor
  · intro h
    obtain ⟨hw, hi⟩ := decodedWordIsItsOneEncoding w i h
    exact ⟨hw.symm, hi⟩
  · rintro ⟨rfl, hi⟩
    exact decodeOfEncodeIsTheCommand i hi

/-! ### The decoder is `DECODE` (R79) -/

/-- Settles O3: what the decoder reads is what `DECODE` reads (`DECODE_of_decode`, `DECODE_of_illegal`). -/
theorem decoderIsTheDecodeOfTheManual : Obligations.DecoderIsTheDecodeOfTheManual := by
  intro w
  cases hd : decode w with
  | instr j => simp [DECODE_of_decode hd]
  | illegal c => simp [DECODE_of_illegal hd]

/-! ### The opcode map (R72, R73, R74) -/

theorem decode_eq_operandFree_iff {w : Word} {i : Instr} (hi : i ∈ operandFree) : decode w = .instr i ↔ w = encode i := by
  rw [decode_eq_instr_iff, and_iff_left (wellFormed_of_operandFree i hi)]

theorem decode_eq_proc_iff {w : Word} {x : Int} :
    decode w = .instr (.proc x) ↔ w &&& 0xFFFF0000#32 = 0x30000000#32 ∧ x = (dataField w).toInt := by
  have hmask : w &&& 0xFFFF0000#32 = 0x30000000#32 ↔ w.toNat / 2 ^ 16 = 0x3000 := by
    rw [and_eq_iff_high16, BitVec.toNat_ofNat]
    omega
  rw [hmask]
  constructor
  · intro h
    obtain ⟨hw, hx⟩ := decode_eq_instr_iff.mp h
    have hhigh : w.toNat / 2 ^ 16 = 0x3000 := hw ▸ encode_proc_high (procOperandOk_iff.mp hx)
    rw [decode_of_proc hhigh] at h
    cases h
    exact ⟨hhigh, rfl⟩
  · rintro ⟨hhigh, rfl⟩
    exact decode_of_proc hhigh

theorem decode_eq_procraw_iff {w : Word} {raw : Nat} :
    decode w = .instr (.procraw raw) ↔ w &&& 0xFFFFF000#32 = 0x40000000#32 ∧ raw = (rawField w).toNat := by
  have hmask : w &&& 0xFFFFF000#32 = 0x40000000#32 ↔ w.toNat / 2 ^ 12 = 0x40000 := by
    rw [and_eq_iff_high20, BitVec.toNat_ofNat]
    omega
  rw [hmask, rawField_toNat]
  constructor
  · intro h
    obtain ⟨hw, hr⟩ := decode_eq_instr_iff.mp h
    have hhigh : w.toNat / 2 ^ 12 = 0x40000 := hw ▸ encode_procraw_high (procrawOperandOk_iff.mp hr)
    rw [decode_of_procraw hhigh] at h
    cases h
    exact ⟨hhigh, rfl⟩
  · rintro ⟨hhigh, rfl⟩
    exact decode_of_procraw hhigh

/-- A word is illegal exactly when no row of the table matches it (R72). -/
theorem exists_decode_eq_illegal_iff (w : Word) :
    (∃ c, decode w = .illegal c) ↔ ∀ r ∈ opcodeRows, r.encodes w = false := by
  have hfind : (∃ c, decode w = .illegal c) ↔ opcodeRows.find? (fun r => r.encodes w) = none := by
    unfold decode
    cases opcodeRows.find? fun r => r.encodes w <;> simp [decodedBy]
  rw [hfind, List.find?_eq_none]
  simp only [Bool.not_eq_true]

/-- A word that two rows match makes their patterns agree wherever both masks look. -/
theorem pattern_agree_of_encodes {p q : OpcodeRow} {w : Word} (hp : p.encodes w = true) (hq : q.encodes w = true) :
    p.pattern &&& q.mask = q.pattern &&& p.mask := by
  have hp : w &&& p.mask = p.pattern := by simpa [OpcodeRow.encodes] using hp
  have hq : w &&& q.mask = q.pattern := by simpa [OpcodeRow.encodes] using hq
  rw [← hp, ← hq, BitVec.and_assoc, BitVec.and_assoc, BitVec.and_comm p.mask]

theorem opcodeRows_patterns_differ :
    opcodeRows.Pairwise fun p q => p.pattern &&& q.mask ≠ q.pattern &&& p.mask := by decide

/-- At most one row of the table matches a word (R72). -/
theorem opcodeRows_pairwise_exclusive (w : Word) :
    opcodeRows.Pairwise fun p q => ¬(p.encodes w = true ∧ q.encodes w = true) :=
  opcodeRows_patterns_differ.imp fun hne ⟨hp, hq⟩ => hne (pattern_agree_of_encodes hp hq)

/-- Settles O4, row by row. -/
theorem opcodeMapRowByRow : Obligations.OpcodeMapRowByRow :=
  fun w =>
    ⟨decode_eq_operandFree_iff (by decide), decode_eq_operandFree_iff (by decide), decode_eq_operandFree_iff (by decide),
      fun _ => decode_eq_proc_iff, fun _ => decode_eq_procraw_iff, decode_eq_operandFree_iff (by decide),
      decode_eq_operandFree_iff (by decide), exists_decode_eq_illegal_iff w, opcodeRows_pairwise_exclusive w⟩

/-! ### Reserved opcodes (R77) -/

theorem not_LEGAL_of_reserved {w : Word} (h : 7 ≤ (w.extractLsb' 28 4).toNat) : LEGAL w = false := by
  rw [opcode_toNat] at h
  rw [Bool.eq_false_iff, Ne, LEGAL_iff]
  omega

/-- R201: executing an illegal word sets `ERR`, answers 0 and changes nothing else. -/
theorem runCommand_of_illegal {w : Word} {c : IllegalCause} (h : decode w = .illegal c) (s : State) :
    runCommand w s = .next { s with S := { s.S with ERR := true }, rsp := some 0#32 } := by
  rw [runCommand_eq, wordEffect_of_illegal h, wordResponse_of_illegal h]
  rfl

/-- Settles O5: a word with a reserved opcode is not `LEGAL`, so it decodes to no command. -/
theorem reservedOpcodesAreIllegal : Obligations.ReservedOpcodesAreIllegal := by
  intro w s h
  have hd := decode_of_not_LEGAL (not_LEGAL_of_reserved h)
  exact ⟨⟨_, hd⟩, runCommand_of_illegal hd s⟩

end Sys2Proof

namespace Sys2Proof.Machine

open Sys2Proof.Safety

/-! ### Lines of a host program (R80, R81) -/

theorem events_proc_dec (i : Int) :
    Line.events (.proc (.dec i)) =
      if InSampleRange i then some [.command (0x30000000#32 ||| (BitVec.ofInt 16 i).setWidth 32)] else none := by
  simp only [Line.events, procOfImm, procOperandOk_iff]
  split <;> rfl

/-- The word of the PROC of a pattern holds the pattern itself (R80). -/
theorem encode_proc_pattern {p : Nat} (hp : p ≤ 0xFFFF) :
    encode (.proc (BitVec.ofNat 16 p).toInt) = 0x30000000#32 ||| BitVec.ofNat 32 p := by
  have hwide : (BitVec.ofNat 16 p).setWidth 32 = BitVec.ofNat 32 p := by
    apply BitVec.eq_of_toNat_eq
    simp only [BitVec.toNat_setWidth, BitVec.toNat_ofNat]
    omega
  rw [encode, BitVec.ofInt_toInt, hwide]

theorem events_proc_hex (p : Nat) :
    Line.events (.proc (.hex p)) =
      if p ≤ 0xFFFF then some [.command (0x30000000#32 ||| BitVec.ofNat 32 p)] else none := by
  simp only [Line.events, procOfImm]
  split
  · next hp => simp only [Option.map_some, eventOf, encode_proc_pattern hp]
  · rfl

theorem events_procraw_dec (i : Int) :
    Line.events (.procraw (.dec i)) =
      if 0 ≤ i ∧ i ≤ 4095 then some [.command (0x40000000#32 ||| BitVec.ofInt 32 i)] else none := by
  have hrange : 0 ≤ i ∧ i.toNat ≤ 4095 ↔ 0 ≤ i ∧ i ≤ 4095 := by omega
  simp only [Line.events, procrawOfImm, procrawOperandOk_iff, hrange]
  split
  · next hi =>
    obtain ⟨n, rfl⟩ := Int.eq_ofNat_of_zero_le hi.1
    simp [eventOf, encode]
  · rfl

theorem events_procraw_hex (p : Nat) :
    Line.events (.procraw (.hex p)) =
      if p ≤ 4095 then some [.command (0x40000000#32 ||| BitVec.ofNat 32 p)] else none := by
  simp only [Line.events, procrawOfImm, procrawOperandOk_iff]
  split <;> rfl

/-- Settles O59: the lines without immediate by their definition, those with one by their range. -/
theorem assemblerLines : Obligations.AssemblerLines :=
  ⟨rfl, rfl, rfl, rfl, rfl, rfl, events_proc_dec, events_proc_hex, events_procraw_dec, events_procraw_hex, fun _ => rfl⟩

/-- Settles O60: each pseudo-instruction is an error exactly where its filter command is, and otherwise puts ACK before it. -/
theorem pseudoInstructionExpansions : Obligations.PseudoInstructionExpansions := by
  refine ⟨fun imm => ?_, fun imm => ?_, rfl⟩
  · simp only [Line.events]
    cases procrawOfImm imm <;> rfl
  · simp only [Line.events]
    cases procOfImm imm <;> rfl

end Sys2Proof.Machine
end

section
/-! The scheduler (40_scheduler.md): what a TICK does (R100), what the control commands do (R102 to R106), and what writes and
what counts in `OVR_CNT` (R107). -/

namespace Sys2Proof.Machine

open Sys2Proof.Safety

/-! ### The control commands (R102 to R106) -/

/-- Settles O20: `exec_eq` of the three commands. -/
theorem nopStatusInfoOnlyAnswer : Obligations.NopStatusInfoOnlyAnswer :=
  fun s => ⟨exec_eq .nop s, exec_eq .status s, exec_eq .info s⟩

/-- Settles O21: `exec_eq` of ACK. -/
theorem ackAnswersThenClearsReady : Obligations.AckAnswersThenClearsReady := exec_eq .ack

/-- Settles O22: `exec_eq` of CLRST. -/
theorem clrstAnswersThenClearsTheStickyStatus : Obligations.ClrstAnswersThenClearsTheStickyStatus := exec_eq .clrst

/-! ### The TICK (R100) -/

theorem TICK_of_ready {S : Engine} (h : S.READY = true) : TICK S = { S with OVR_CNT := overrunCount S.OVR_CNT } :=
  if_pos h

theorem TICK_of_not_ready {S : Engine} (h : S.READY = false) : TICK S = { S with READY := true } :=
  if_neg (Bool.eq_false_iff.mp h)

/-- In reset an event other than those of reset and power is used up and has no effect (R221). -/
theorem step_of_inReset {s : State} {e : Event} {es : List Event} (hb : s.build.wellFormed = true)
    (hp : s.phase = .inReset) (hs : s.schedule = e :: es) (he : e.isReset = false) :
    step s = .next { s with schedule := es } := by
  rw [step_eq hb hs, applyEvent_eq]
  simp only [he, hp, Bool.false_eq_true, if_false]

/-- Settles O9: while running the step is the TICK on `S`, in reset it does nothing. -/
theorem tickSetsReadyOrCountsAnOverrun : Obligations.TickSetsReadyOrCountsAnOverrun := by
  intro s es hb hs
  refine ⟨fun hp hready => ?_, fun hp hready => ?_, fun hp => step_of_inReset hb hp hs rfl⟩
  · rw [step_of_running hb hp hs rfl, State.after, State.tick, TICK_of_ready hready]
    rfl
  · rw [step_of_running hb hp hs rfl, State.after, State.tick, TICK_of_not_ready hready]
    rfl

/-! ### Who writes `OVR_CNT` (R107) -/

theorem effectOn_OVR_CNT (b : Build) {i : Instr} (hi : i ≠ .clrst) (S : Engine) :
    (effectOn b i S).OVR_CNT = S.OVR_CNT := by
  cases i with
  | clrst => exact absurd rfl hi
  | nop | status | ack | proc | procraw | info => rfl

/-- No word but that of CLRST writes `OVR_CNT` (R63, R201). -/
theorem wordEffect_OVR_CNT (b : Build) {w : Word} (hw : w ≠ 0x50000000#32) (S : Engine) :
    (wordEffect b w S).OVR_CNT = S.OVR_CNT := by
  cases hd : decode w with
  | illegal c => rw [wordEffect_of_illegal hd]
  | instr i =>
    have hi : i ≠ .clrst := by
      rintro rfl
      exact hw (eq_encode_of_decode (by decide) hd)
    rw [wordEffect_of_instr hd, effectOn_OVR_CNT b hi]

theorem afterWord_OVR_CNT {s : State} (h : accepted s ≠ some 0x50000000#32) : s.afterWord.OVR_CNT = s.S.OVR_CNT := by
  cases ha : accepted s with
  | none => rw [afterWord_of_none ha]
  | some w =>
    have hw : w ≠ 0x50000000#32 := fun hw => h (hw ▸ ha)
    rw [afterWord_of_accepted ha, wordEffect_OVR_CNT _ hw]

/-- A TICK adds 1 to `OVR_CNT` if it finds `READY = 1`, never beyond 0xFFFF (R100, R26). -/
theorem TICK_OVR_CNT_toNat (S : Engine) :
    (TICK S).OVR_CNT.toNat = min (S.OVR_CNT.toNat + if S.READY then 1 else 0) 0xFFFF := by
  have hlt := S.OVR_CNT.isLt
  rw [TICK_OVR_CNT]
  split
  · exact overrunCount_toNat S.OVR_CNT
  · omega

/-- A TICK adds at most 1 to `OVR_CNT`, and does not make it smaller. -/
theorem TICK_OVR_CNT_bounds (S : Engine) :
    S.OVR_CNT.toNat ≤ (TICK S).OVR_CNT.toNat ∧ (TICK S).OVR_CNT.toNat ≤ S.OVR_CNT.toNat + 1 := by
  have hlt := S.OVR_CNT.isLt
  rw [TICK_OVR_CNT_toNat]
  split <;> omega

/-- In reset a step that does not replace `S` leaves it as it is (R221; log 7, log 8). -/
theorem step_S_of_inReset {s t : State} (hI : Inv s) (h : step s = .next t) (hp : s.phase = .inReset)
    (hr : replacesS s = false) : t.S = s.S := by
  rcases step_S_cases hI h hr with ⟨hS, _⟩ | ⟨_, hrun, _⟩
  · rw [hS, afterWord_of_none (accepted_of_not_running (by simp [hp]))]
  · rw [hp] at hrun
    cases hrun

/-- Settles O36: the step is the accepted word's effect and, where the event is one, a TICK after it (`step_S_cases`). -/
theorem overrunCounterIsWrittenOnlyByTickClrstAndReset : Obligations.OverrunCounterIsWrittenOnlyByTickClrstAndReset := by
  intro s t hI h
  refine ⟨fun hr hb ha => ?_, fun hr ha => ?_, fun hb ha => ?_, fun es hs => ?_, fun hp hr => ?_⟩
  · rw [step_S_of_no_tick hI h hr hb, afterWord_OVR_CNT ha]
  · rw [← afterWord_OVR_CNT ha]
    rcases step_S_cases hI h hr with ⟨hS, _⟩ | ⟨hS, _⟩ <;> rw [hS]
    · exact ⟨le_rfl, Nat.le_succ _⟩
    · exact TICK_OVR_CNT_bounds s.afterWord
  · rw [step_S_of_no_tick hI h (replacesS_of_accepted ha) hb, afterWord_of_clrst ha]
    rfl
  · rw [step_S_of_reset h hs]
    rfl
  · rw [step_S_of_inReset hI h hp hr]

/-! ### What `OVR_CNT` counts (R107) -/

/-- Without CLRST, `OVR_CNT` ends at its start plus the TICKs that found `READY = 1`, or at 0xFFFF if that is less. -/
theorem observe_OVR_CNT_toNat (b : Build) (es : List RunEvent) (S : Engine) (hes : .command 0x50000000#32 ∉ es) :
    (observe b es S).1.OVR_CNT.toNat = min (S.OVR_CNT.toNat + overruns b es S) 0xFFFF := by
  induction es generalizing S with
  | nil =>
    have hlt := S.OVR_CNT.isLt
    simp only [observe, overruns]
    omega
  | cons e es ih =>
    rw [List.mem_cons, not_or] at hes
    obtain ⟨he, hes⟩ := hes
    cases e with
    | command w =>
      have hw : w ≠ 0x50000000#32 := fun hw => he (hw ▸ rfl)
      simp only [observe, overruns, commandEffect_eq, ih _ hes, wordEffect_OVR_CNT b hw]
    | tick =>
      simp only [observe, overruns, ih _ hes, TICK_OVR_CNT_toNat]
      omega

/-- Settles O37: the count of `observe_OVR_CNT_toNat`, from 0. -/
theorem overrunCounterCountsTheLostTicks : Obligations.OverrunCounterCountsTheLostTicks := by
  intro b es S hzero hes
  rw [observe_OVR_CNT_toNat b es S hes, hzero, BitVec.toNat_ofNat, Nat.zero_mod, Nat.zero_add]

end Sys2Proof.Machine
end

section
/-! The filter commands (41_pipeline.md): rounding and denormalizing (R121, R125, R131), the exact sums in the 48-bit accumulator
(R120), what PROC and PROCRAW answer (R127, R128, R130), and what changes the filter state (R129). -/

namespace Sys2Proof.Machine

open Sys2Proof.Safety

/-! ### Rounding, normalizing and denormalizing (R121, R124, R125) -/

/-- Rounding moves a value by at most one half, and a value halfway goes up. -/
theorem RND14_nearest (a : Int) : -8192 < RND14 a * 16384 - a ∧ RND14 a * 16384 - a ≤ 8192 := by
  rw [RND14_eq]
  omega

/-- Settles O43: the bounds of `RND14_nearest`, and the rule's three values computed. -/
theorem roundingIsToNearestHalvesUp : Obligations.RoundingIsToNearestHalvesUp :=
  ⟨fun a => ⟨RND14_eq a, RND14_nearest a⟩, by decide, by decide, by decide⟩

theorem DENORM_value (y : Int) : (DENORM y).value = max 0 (min ((y + 2) / 4 + 2048) 4095) := by
  simp only [DENORM, clamp]
  omega

theorem DENORM_saturated (y : Int) :
    (DENORM y).saturated = decide ((y + 2) / 4 + 2048 < 0 ∨ 4095 < (y + 2) / 4 + 2048) :=
  (Bool.decide_or _ _).symm

/-- The samples that clamp (R125). -/
theorem DENORM_saturated_iff (y : Int) : (DENORM y).saturated = true ↔ y < -8194 ∨ 8189 < y := by
  rw [DENORM_saturated, decide_eq_true_iff]
  omega

/-- Settles O46: `DENORM_saturated_iff` and `DENORM_value`, which hold of every integer. -/
theorem denormClampsOutsideItsRange : Obligations.DenormClampsOutsideItsRange :=
  fun y _ => ⟨DENORM_saturated_iff y, DENORM_value y⟩

/-- The samples of the raw codes. -/
theorem NORM_bounds {raw : Nat} (h : raw ≤ 4095) : -8192 ≤ NORM raw ∧ NORM raw ≤ 8188 := by
  unfold NORM
  omega

/-- Denormalizing a normalized code gives the code back, and does not clamp (R131). -/
theorem DENORM_NORM {raw : Nat} (h : raw ≤ 4095) : DENORM (NORM raw) = ⟨raw, false⟩ := by
  obtain ⟨hlo, hhi⟩ := NORM_bounds h
  have hvalue : (DENORM (NORM raw)).value = raw := by
    rw [DENORM_value, NORM]
    omega
  have hsat : (DENORM (NORM raw)).saturated = false := by
    rw [Bool.eq_false_iff, ne_eq, DENORM_saturated_iff]
    omega
  calc DENORM (NORM raw) = ⟨(DENORM (NORM raw)).value, (DENORM (NORM raw)).saturated⟩ := rfl
    _ = ⟨raw, false⟩ := by rw [hvalue, hsat]

/-- Settles O45: `NORM_bounds` and `DENORM_NORM`. -/
theorem denormOfNormIsTheRawCode : Obligations.DenormOfNormIsTheRawCode :=
  fun _ h => ⟨rfl, (NORM_bounds h).1, (NORM_bounds h).2, DENORM_NORM h⟩

/-! ### The exact sums and the 48-bit accumulator (R120) -/

/-- Any integer of at most `2^38` in magnitude is read back unchanged from the accumulator. -/
theorem toInt_ofInt48 {a : Int} (h : |a| ≤ 2 ^ 38) : (BitVec.ofInt 48 a).toInt = a := by
  obtain ⟨hlo, hhi⟩ := abs_le.mp h
  exact BitVec.toInt_ofInt_eq_self (by decide) (by omega) (by omega)

theorem sampleAt_inRange (l : List Sample) (k : Nat) : InSampleRange (sampleAt l k) := sample_toInt_inRange _

/-- A sum of `n` products of a coefficient and a word of a history, whichever coefficients they are. -/
theorem abs_sumTo_coef_mul_le (b : Build) (n : Nat) (index : Nat → Nat) (l : List Sample) :
    |sumTo n fun k => b.C (index k) * sampleAt l k| ≤ n * 2 ^ 32 :=
  abs_sumTo_le fun k _ => abs_coef_mul_le b (index k) (sampleAt_inRange l k)

theorem abs_firSum_le (b : Build) (H : List Sample) : |firSum b H| ≤ b.NTAPS * 2 ^ 32 :=
  abs_sumTo_coef_mul_le b b.NTAPS id H

/-- One product for the input, and `NORD` for each history. -/
theorem abs_dfSum_le (b : Build) (f : FilterState) {x : Int} (hx : InSampleRange x) :
    |dfSum b f x| ≤ (2 * b.NORD + 1) * 2 ^ 32 := by
  have h0 : |b.B 0 * x| ≤ 2 ^ 32 := abs_coef_mul_le b 0 hx
  have hX := abs_sumTo_coef_mul_le b b.NORD (· + 1) f.XH
  have hY := abs_sumTo_coef_mul_le b b.NORD (fun j => b.NORD + (j + 1)) f.YH
  unfold dfSum Build.A Build.B at *
  rw [abs_le] at *
  constructor <;> linarith

/-- The five products of one section. -/
theorem abs_sectionSum_le (b : Build) (i : Nat) (c : SectionState) {v : Int} (hv : InSampleRange v) :
    |sectionSum b i c v| ≤ 5 * 2 ^ 32 := by
  have h0 : |b.b0 i * v| ≤ 2 ^ 32 := abs_coef_mul_le b _ hv
  have h1 : |b.b1 i * c.SX1.toInt| ≤ 2 ^ 32 := abs_coef_mul_le b _ (sample_toInt_inRange _)
  have h2 : |b.b2 i * c.SX2.toInt| ≤ 2 ^ 32 := abs_coef_mul_le b _ (sample_toInt_inRange _)
  have h3 : |b.a1 i * c.SY1.toInt| ≤ 2 ^ 32 := abs_coef_mul_le b _ (sample_toInt_inRange _)
  have h4 : |b.a2 i * c.SY2.toInt| ≤ 2 ^ 32 := abs_coef_mul_le b _ (sample_toInt_inRange _)
  unfold sectionSum
  rw [abs_le] at *
  constructor <;> linarith

theorem NTAPS_le_of_wellFormed {b : Build} (hb : b.wellFormed = true) (hs : b.STRUCT = .FIR) : b.NTAPS ≤ 64 := by
  obtain ⟨_, hlen, _⟩ := Build.wellFormed_iff.mp hb
  simpa only [Build.LEN, Struct.maxLen, hs] using hlen

theorem NORD_le_of_wellFormed {b : Build} (hb : b.wellFormed = true) (hs : b.STRUCT = .IIR_DIRECT) : b.NORD ≤ 8 := by
  obtain ⟨_, hlen, _⟩ := Build.wellFormed_iff.mp hb
  simpa only [Build.LEN, Struct.maxLen, hs] using hlen

/-- Settles O44: each sum's bound by its number of products, which R6 limits, and `toInt_ofInt48`. -/
theorem sumsFitTheAccumulator : Obligations.SumsFitTheAccumulator := by
  intro b hb
  refine ⟨fun i w => abs_coef_mul_le b i (sample_toInt_inRange w), fun hs H => ?_, fun hs f x hx => ?_,
    fun _ i c v hv => ?_⟩
  · have hn := NTAPS_le_of_wellFormed hb hs
    have hsum : |firSum b H| ≤ 2 ^ 38 := (abs_firSum_le b H).trans (by norm_num; omega)
    exact ⟨hsum, toInt_ofInt48 hsum⟩
  · have hn := NORD_le_of_wellFormed hb hs
    have hsum : |dfSum b f x| ≤ 17 * 2 ^ 32 := (abs_dfSum_le b f hx).trans (by norm_num; omega)
    exact ⟨hsum, toInt_ofInt48 (hsum.trans (by norm_num))⟩
  · have hsum := abs_sectionSum_le b i c hv
    exact ⟨hsum, toInt_ofInt48 (hsum.trans (by norm_num))⟩

/-! ### What PROC and PROCRAW answer (R127, R128, R130) -/

/-- Settles O28: `exec_eq` of PROC, whose response is the output of `FILTER_STEP`. -/
theorem procAnswersASampleInRange : Obligations.ProcAnswersASampleInRange :=
  fun s x hx => ⟨_, _, exec_eq (.proc x) s, rfl, FILTER_STEP_inRange s.build s.S.filter hx⟩

/-- PROCRAW leaves what PROC leaves on the normalized code, and `SAT` set by the clamp as well. -/
theorem effectOn_procraw (b : Build) (raw : Nat) (S : Engine) :
    effectOn b (.procraw raw) S =
      stickySAT (effectOn b (.proc (NORM raw)) S) (DENORM (FILTER_STEP b S.filter (NORM raw)).y).saturated := by
  simp only [effectOn, commitFilter, stickySAT, Bool.or_assoc]

theorem responseOf_procraw (b : Build) (raw : Nat) (S : Engine) :
    responseOf b (.procraw raw) S =
      bits 32 (max 0 (min (((FILTER_STEP b S.filter (NORM raw)).y + 2) / 4 + 2048) 4095)) :=
  congrArg (bits 32) (DENORM_value _)

/-- Settles O29: `effectOn_procraw` and `responseOf_procraw`. -/
theorem procrawIsNormalizeFilterDenormalize : Obligations.ProcrawIsNormalizeFilterDenormalize := by
  intro s raw hraw
  refine ⟨_, _, _, exec_eq (.proc (NORM raw)) s, rfl, FILTER_STEP_inRange s.build s.S.filter (NORM_inRange hraw), rfl, ?_⟩
  rw [exec_eq, effectOn_procraw, responseOf_procraw, DENORM_saturated]
  rfl

/-- The response of a filter command, the filter state it leaves and its report of saturation are those of any other `S` with the
same filter state. -/
theorem filtering_congr (b : Build) {i : Instr} (hi : (∃ x, i = .proc x) ∨ ∃ raw, i = .procraw raw) {S₁ S₂ : Engine}
    (hf : S₁.filter = S₂.filter) :
    responseOf b i S₁ = responseOf b i S₂ ∧ (effectOn b i S₁).filter = (effectOn b i S₂).filter ∧
    ∃ sat, (effectOn b i S₁).SAT = (S₁.SAT || sat) ∧ (effectOn b i S₂).SAT = (S₂.SAT || sat) := by
  rcases hi with ⟨x, rfl⟩ | ⟨raw, rfl⟩ <;>
    simp only [responseOf, effectOn, hf, commitFilter_filter, commitFilter_SAT, true_and]
  · exact ⟨_, rfl, rfl⟩
  · exact ⟨_, rfl, rfl⟩

/-- Settles O31: `filtering_congr` on the two engine states. -/
theorem filteringIgnoresTheFlags : Obligations.FilteringIgnoresTheFlags := by
  intro i s₁ s₂ hi hb hf
  obtain ⟨hrsp, hfilter, sat, h₁, h₂⟩ := filtering_congr s₁.build hi hf
  refine ⟨_, _, sat, exec_eq i s₁, exec_eq i s₂, ?_⟩
  rw [← hb]
  exact ⟨congrArg some hrsp, hfilter, h₁, h₂⟩

/-! ### What changes the filter state (R129) -/

/-- No TICK writes the filter state, so it is what the accepted word leaves. -/
theorem step_filter {s t : State} (hI : Inv s) (h : step s = .next t) (hr : replacesS s = false) :
    t.S.filter = s.afterWord.filter := by
  rcases step_S_cases hI h hr with ⟨hS, _⟩ | ⟨hS, _⟩ <;> simp only [hS, TICK_filter]

/-- No word but those of PROC and PROCRAW writes the filter state: putting back the one it had changes nothing
(`wordEffect_withFilter`). -/
theorem wordEffect_filter (b : Build) {w : Word} (hp : ∀ x, DECODE w ≠ some (.proc x))
    (hr : ∀ raw, DECODE w ≠ some (.procraw raw)) (S : Engine) : (wordEffect b w S).filter = S.filter := by
  obtain ⟨hput, _⟩ := wordEffect_withFilter b hp hr S S.filter
  calc (wordEffect b w S).filter = ((wordEffect b w S).withFilter S.filter).filter := congrArg Engine.filter hput
    _ = S.filter := rfl

/-- The accepted word's command, as R79 reads it, is what runs on `S`. -/
theorem afterWord_of_DECODE {s : State} {w : Word} {i : Instr} (hw : accepted s = some w) (hd : DECODE w = some i) :
    s.afterWord = effectOn s.build i s.S :=
  afterWord_of_instr hw ((decoderIsTheDecodeOfTheManual w).1 i hd)

/-- Settles O38: `step_filter`, by the word that the step accepts. -/
theorem filterStateChangesOnlyByFiltering : Obligations.FilterStateChangesOnlyByFiltering := by
  intro s t hI h hr
  rw [step_filter hI h hr]
  refine ⟨fun hf => ?_, fun w x ha hd => ?_, fun w raw ha hd => ?_⟩
  · cases ha : accepted s with
    | none => rw [afterWord_of_none ha]
    | some w =>
      rw [afterWord_of_accepted ha]
      exact wordEffect_filter s.build (fun x => (hf w x 0 ha).1) (fun raw => (hf w 0 raw ha).2) s.S
  · rw [afterWord_of_DECODE ha hd, effectOn, commitFilter_filter]
  · rw [afterWord_of_DECODE ha hd, effectOn, commitFilter_filter, NORM]

end Sys2Proof.Machine
end

section
/-! The FIR structure (42_fir.md). A sequence of PROC or PROCRAW is a sequence of filter steps, whatever the structure
(`execAll_filtering`). On a FIR build each step sees the last `NTAPS` inputs (`historyAfter`), so from reset the outputs are a
convolution (`filterOutputs_fir_of_zero`), from which the laws of R141 to R146 follow. -/

namespace Sys2Proof.Machine

open Sys2Proof.Safety

/-! ### Sequences of filter commands, on every structure (R126 to R129) -/

/-- The output of one filter step, with its report of saturation. -/
def filterOutput (b : Build) (f : FilterState) (x : Int) : Quantised :=
  ⟨(FILTER_STEP b f x).y, (FILTER_STEP b f x).saturated⟩

/-- The filter state after filter steps on the samples `xs`. -/
def filterAfter (b : Build) : List Int → FilterState → FilterState
  | [], f => f
  | x :: xs, f => filterAfter b xs (FILTER_STEP b f x).filter

/-- The outputs of filter steps on the samples `xs`. -/
def filterOutputs (b : Build) : List Int → FilterState → List Quantised
  | [], _ => []
  | x :: xs, f => filterOutput b f x :: filterOutputs b xs (FILTER_STEP b f x).filter

theorem filterOutput_inRange (b : Build) (f : FilterState) {x : Int} (hx : InSampleRange x) :
    InSampleRange (filterOutput b f x).value := FILTER_STEP_inRange b f hx

theorem filterOutputs_inRange (b : Build) {xs : List Int} (hxs : ∀ x ∈ xs, InSampleRange x) (f : FilterState) :
    ∀ q ∈ filterOutputs b xs f, InSampleRange q.value := by
  induction xs generalizing f with
  | nil => simp [filterOutputs]
  | cons x xs ih =>
    rw [List.forall_mem_cons] at hxs
    exact List.forall_mem_cons.mpr ⟨filterOutput_inRange b f hxs.1, ih hxs.2 _⟩

/-- The answer of PROCRAW to a quantised output, and what it reports as saturation (R128). -/
def rawReply (q : Quantised) : Quantised := ⟨(DENORM q.value).value, q.saturated || (DENORM q.value).saturated⟩

/-- The commands `cmd a` run one filter step on `sample a` and answer `reply` of its output. -/
structure Filters {α : Type} (cmd : α → Instr) (sample : α → Int) (reply : Quantised → Quantised) : Prop where
  effect : ∀ (b : Build) (a : α) (S : Engine), effectOn b (cmd a) S =
    commitFilter S (FILTER_STEP b S.filter (sample a)).filter (reply (filterOutput b S.filter (sample a))).saturated
  response : ∀ (b : Build) (a : α) (S : Engine), responseOf b (cmd a) S =
    bits 32 (reply (filterOutput b S.filter (sample a))).value

theorem filters_proc : Filters .proc id id := ⟨fun _ _ _ => rfl, fun _ _ _ => rfl⟩

theorem filters_procraw : Filters .procraw NORM rawReply := ⟨fun _ _ _ => rfl, fun _ _ _ => rfl⟩

/-- The first command of a sequence leaves its effect to the others. -/
theorem execAll_cons {i : Instr} {is : List Instr} {s u : State} {ws : List Word}
    (h : execAll is { s with S := effectOn s.build i s.S, rsp := some (responseOf s.build i s.S) } = some (u, ws)) :
    execAll (i :: is) s = some (u, responseOf s.build i s.S :: ws) := by
  simp only [execAll, exec_eq, h]

/-- Committing two filter steps one after the other is committing the second, with both reports of saturation. -/
theorem commitFilter_commitFilter (S : Engine) (f g : FilterState) (p q : Bool) :
    commitFilter (commitFilter S f p) g q = commitFilter S g (p || q) := by
  simp only [commitFilter, stickySAT, Bool.or_assoc]

theorem commitFilter_self (S : Engine) : commitFilter S S.filter false = S := by
  simp only [commitFilter, stickySAT, Bool.or_false]

/-- A sequence of filter commands completes: it answers the outputs of the filter steps, and of `S` it changes the filter state
and `SAT`. -/
theorem execAll_filtering {α : Type} {cmd : α → Instr} {sample : α → Int} {reply : Quantised → Quantised}
    (hcmd : Filters cmd sample reply) (as : List α) (s : State) :
    ∃ t, execAll (as.map cmd) s =
        some (t, ((filterOutputs s.build (as.map sample) s.S.filter).map reply).map fun q => bits 32 q.value) ∧
      t.build = s.build ∧
      t.S = commitFilter s.S (filterAfter s.build (as.map sample) s.S.filter)
        (((filterOutputs s.build (as.map sample) s.S.filter).map reply).any Quantised.saturated) := by
  induction as generalizing s with
  | nil => exact ⟨s, rfl, rfl, (commitFilter_self s.S).symm⟩
  | cons a as ih =>
    obtain ⟨t, hexec, hbuild, hS⟩ :=
      ih { s with S := effectOn s.build (cmd a) s.S, rsp := some (responseOf s.build (cmd a) s.S) }
    simp only [hcmd.effect, commitFilter_filter, commitFilter_commitFilter] at hexec hbuild hS
    refine ⟨t, ?_, hbuild, hS⟩
    have hfirst := execAll_cons (i := cmd a) (is := as.map cmd) (s := s) (by rw [hcmd.effect]; exact hexec)
    rwa [hcmd.response] at hfirst

/-- A sequence of PROC completes and answers the outputs of the filter steps. -/
theorem execAll_proc (xs : List Int) (s : State) :
    ∃ t, execAll (xs.map .proc) s =
        some (t, (filterOutputs s.build xs s.S.filter).map fun q => bits 32 q.value) ∧
      t.build = s.build ∧ t.S.filter = filterAfter s.build xs s.S.filter := by
  obtain ⟨t, hexec, hbuild, hS⟩ := execAll_filtering filters_proc xs s
  rw [List.map_id, List.map_id] at hexec
  rw [List.map_id] at hS
  exact ⟨t, hexec, hbuild, congrArg Engine.filter hS⟩

/-! ### One step on a FIR build (R140) -/

theorem FILTER_STEP_of_fir {b : Build} (hs : b.STRUCT = .FIR) (f : FilterState) (x : Int) :
    FILTER_STEP b f x = FIR_STEP b f x := by
  simp only [FILTER_STEP, hs]

theorem filterOutput_of_fir {b : Build} (hs : b.STRUCT = .FIR) (f : FilterState) (x : Int) :
    filterOutput b f x = QUANT (firSum b (shiftIn (bits 16 x) f.H)) := by
  rw [filterOutput, FILTER_STEP_of_fir hs]
  rfl

theorem firSum_eq_sum (b : Build) (H : List Sample) :
    firSum b H = ∑ k ∈ Finset.range b.NTAPS, b.C k * (H.getD k 0).toInt := sumTo_eq_sum _ _

theorem exec_proc_of_fir {s : State} (hs : s.build.STRUCT = .FIR) (x : Int) :
    exec (.proc x) s = .next { s with
      S := commitFilter s.S { s.S.filter with H := shiftIn (bits 16 x) s.S.filter.H }
        (QUANT (firSum s.build (shiftIn (bits 16 x) s.S.filter.H))).saturated
      rsp := some (bits 32 (QUANT (firSum s.build (shiftIn (bits 16 x) s.S.filter.H))).value) } := by
  rw [exec_eq, effectOn, responseOf, FILTER_STEP_of_fir hs]
  rfl

/-- Settles O25: the new history is the shifted one, and the quantised sum as `QUANT_value` and `QUANT_saturated` write it. -/
theorem procOnAFirBuild : Obligations.ProcOnAFirBuild := by
  intro s x hs hn hlen _
  refine ⟨shiftIn (bits 16 x) s.S.filter.H, _, ?_, ?_, fun k hk hkn => ?_, rfl, ?_⟩
  · rw [shiftIn_length, hlen]
  · exact shiftIn_getD_zero _ (by omega)
  · obtain ⟨j, rfl⟩ := Nat.exists_eq_add_of_le' hk
    exact shiftIn_getD_succ _ (by omega)
  · rw [exec_proc_of_fir hs, QUANT_value, QUANT_saturated, firSum_eq_sum]
    rfl

/-! ### The history of a FIR build is the last `NTAPS` inputs -/

/-- A history `H` after the inputs `xs`: the newest input first, the oldest words discarded. -/
def historyAfter (xs : List Int) (H : List Sample) : List Sample := ((xs.map (bits 16)).reverse ++ H).take H.length

theorem historyAfter_nil (H : List Sample) : historyAfter [] H = H := by simp [historyAfter]

/-- The shift keeps as many of the newest words as there were. -/
theorem shiftIn_eq_take (w : Sample) (l : List Sample) : shiftIn w l = (w :: l).take l.length := by
  simp [shiftIn, List.dropLast_eq_take]

theorem historyAfter_cons (x : Int) (xs : List Int) (H : List Sample) :
    historyAfter (x :: xs) H = historyAfter xs (shiftIn (bits 16 x) H) := by
  simp only [historyAfter, shiftIn_length, List.map_cons, List.reverse_cons, List.append_assoc, List.singleton_append]
  rw [shiftIn_eq_take, List.take_append, List.take_append (l₂ := List.take _ _), List.take_take,
    Nat.min_eq_left (Nat.sub_le _ _)]

theorem filterAfter_of_fir {b : Build} (hs : b.STRUCT = .FIR) (xs : List Int) (f : FilterState) :
    filterAfter b xs f = { f with H := historyAfter xs f.H } := by
  induction xs generalizing f with
  | nil => rw [historyAfter_nil]; rfl
  | cons x xs ih =>
    rw [filterAfter, ih, FILTER_STEP_of_fir hs, historyAfter_cons]
    rfl

/-- Output `n` of a FIR build is taken from the history with inputs `0` to `n`. -/
theorem filterOutputs_of_fir {b : Build} (hs : b.STRUCT = .FIR) (xs : List Int) (f : FilterState) :
    filterOutputs b xs f =
      (List.range xs.length).map fun n => QUANT (firSum b (historyAfter (xs.take (n + 1)) f.H)) := by
  induction xs generalizing f with
  | nil => rfl
  | cons x xs ih =>
    rw [filterOutputs, ih, filterOutput_of_fir hs, FILTER_STEP_of_fir hs, List.length_cons, List.range_succ_eq_map,
      List.map_cons, List.map_map]
    simp only [List.take_succ_cons, List.take_zero, historyAfter_cons, historyAfter_nil, Function.comp_def,
      Nat.succ_eq_add_one]
    rfl

theorem firHistory_length {b : Build} {f : FilterState} (hs : b.STRUCT = .FIR) (hf : Fits b f) :
    f.H.length = b.NTAPS := by
  obtain ⟨hH, _⟩ := hf
  rw [hH, if_pos hs]

theorem one_le_NTAPS_of_wellFormed {b : Build} (hb : b.wellFormed = true) (hs : b.STRUCT = .FIR) : 1 ≤ b.NTAPS := by
  obtain ⟨hlen, _⟩ := Build.wellFormed_iff.mp hb
  simpa only [Build.LEN, hs] using hlen

theorem firHistory_of_allZero {b : Build} {f : FilterState} (hs : b.STRUCT = .FIR) (hf : Fits b f) (hz : AllZero f) :
    f.H = List.replicate b.NTAPS 0 := by
  obtain ⟨hH, _⟩ := hz
  exact List.eq_replicate_iff.mpr ⟨firHistory_length hs hf, hH⟩

/-! ### The convolution from reset (R141, R142) -/

/-- From zero, entry `k` of the history is the input `k + 1` calls before the next one. -/
theorem historyAfter_zero_getD {xs : List Int} (hxs : ∀ x ∈ xs, InSampleRange x) {n k : Nat} (hk : k < n) :
    ((historyAfter xs (List.replicate n 0)).getD k 0).toInt = delayed (nth xs) xs.length (k + 1) := by
  have hget : (historyAfter xs (List.replicate n 0)).getD k 0 =
      ((xs.map (bits 16)).reverse ++ List.replicate n 0).getD k 0 := by
    simp only [historyAfter, List.getD_eq_getElem?_getD, List.length_replicate, List.getElem?_take_of_lt hk]
  rw [hget, delayed]
  split
  · next hlt =>
    have hrange := hxs xs[xs.length - (k + 1)] (List.getElem_mem _)
    have hindex : xs.length - 1 - k = xs.length - (k + 1) := by omega
    have hword : ((xs.map (bits 16)).reverse ++ List.replicate n 0).getD k 0 = bits 16 xs[xs.length - (k + 1)] := by
      have hk : k < (xs.map (bits 16)).reverse.length := by simpa using hlt
      rw [List.getD_append _ _ _ _ hk, List.getD_eq_getElem _ _ hk]
      simp [hindex]
    rw [hword, toInt_bits16 hrange, nth, List.getD_eq_getElem _ _ (by omega)]
  · next hge =>
    rw [List.getD_append_right _ _ _ _ (by simpa using hge), List.getD_eq_getElem?_getD,
      List.getElem?_getD_replicate_default_eq]
    rfl

/-- An input that has come does not depend on those that are still to come. -/
theorem delayed_nth_take (xs : List Int) (n k : Nat) :
    delayed (nth (xs.take (n + 1))) (n + 1) (k + 1) = delayed (nth xs) n k := by
  have hlt : n - k < n + 1 := by omega
  simp [delayed, nth, List.getD_eq_getElem?_getD, hlt]

/-- The convolution of the coefficients with the inputs, at call `n` (R141). -/
def convolution (b : Build) (xs : List Int) (n : Nat) : Int :=
  ∑ k ∈ Finset.range b.NTAPS, b.C k * delayed (nth xs) n k

theorem firSum_historyAfter_zero {b : Build} {xs : List Int} (hxs : ∀ x ∈ xs, InSampleRange x) {n : Nat}
    (hn : n < xs.length) :
    firSum b (historyAfter (xs.take (n + 1)) (List.replicate b.NTAPS 0)) = convolution b xs n := by
  rw [firSum_eq_sum]
  refine Finset.sum_congr rfl fun k hk => ?_
  have hlen : (xs.take (n + 1)).length = n + 1 := by rw [List.length_take]; omega
  rw [historyAfter_zero_getD (fun x hx => hxs x (List.mem_of_mem_take hx)) (Finset.mem_range.mp hk), hlen,
    delayed_nth_take]

/-- From reset the outputs of a FIR build are the quantised convolution. -/
theorem filterOutputs_fir_of_zero {b : Build} {f : FilterState} (hs : b.STRUCT = .FIR) (hf : Fits b f) (hz : AllZero f)
    {xs : List Int} (hxs : ∀ x ∈ xs, InSampleRange x) :
    filterOutputs b xs f = (List.range xs.length).map fun n => QUANT (convolution b xs n) := by
  rw [filterOutputs_of_fir hs, firHistory_of_allZero hs hf hz]
  refine List.map_congr_left fun n hn => ?_
  rw [firSum_historyAfter_zero hxs (List.mem_range.mp hn)]

/-- The n-th response of a sequence whose responses are given by number, each in range. -/
theorem answer_map_range {g : Nat → Int} {m n : Nat} (hn : n < m) (hg : InSampleRange (g n)) :
    answer ((List.range m).map fun n => bits 32 (g n)) n = g n := by
  obtain ⟨hlo, hhi⟩ := hg
  have hget : ((List.range m).map fun n => bits 32 (g n)).getD n 0 = bits 32 (g n) := by
    simp [List.getD_eq_getElem?_getD, hn]
  rw [answer, hget, toInt_bits32 hlo hhi]

/-- Settles O47: `filterOutputs_fir_of_zero` for the answers, `historyAfter_zero_getD` for the history. -/
theorem firConvolutionLaw : Obligations.FirConvolutionLaw := by
  intro s xs _ hs hf hz hxs
  obtain ⟨t, hexec, -, hfilter⟩ := execAll_proc xs s
  rw [filterOutputs_fir_of_zero hs hf hz hxs, List.map_map] at hexec
  refine ⟨t, _, hexec, by simp, fun n hn => answer_map_range hn (QUANT_inRange _), fun k hk => ?_⟩
  rw [hfilter, filterAfter_of_fir hs, firHistory_of_allZero hs hf hz]
  exact historyAfter_zero_getD hxs hk

/-- At call `n` the impulse stands at delay `n`, and every other delay holds 0. -/
theorem delayed_impulse (m n k : Nat) :
    delayed (nth (0x4000 :: List.replicate m 0)) n k = if k = n then 0x4000 else 0 := by
  rcases lt_trichotomy k n with hlt | rfl | hgt
  · obtain ⟨j, hj⟩ := Nat.exists_eq_add_one.mpr (Nat.sub_pos_of_lt hlt)
    rw [delayed, if_pos hlt.le, if_neg hlt.ne, hj, nth, List.getD_cons_succ, List.getD_eq_getElem?_getD,
      List.getElem?_getD_replicate_default_eq]
  · simp [delayed, nth]
  · rw [delayed, if_neg (by omega), if_neg (by omega)]

/-- A coefficient times 1.0 quantises to itself, saturated (R142). -/
theorem QUANT_coef_unit (c : Int) : (QUANT (c * 0x4000)).value = max (-32768) (min c 32767) := by
  have hround : (c * 0x4000 + 8192) / 16384 = c := by omega
  rw [QUANT_value, hround]

/-- Settles O48: the convolution law on the impulse, where one term of the sum is left. -/
theorem firImpulseLaw : Obligations.FirImpulseLaw := by
  intro s m hb hs hf hz
  obtain ⟨t, ws, hexec, hlen, hans, -⟩ := firConvolutionLaw s (0x4000 :: List.replicate m 0) hb hs hf hz
    (by simp [InSampleRange])
  rw [List.map_cons, List.map_replicate] at hexec
  rw [List.length_cons, List.length_replicate] at hlen hans
  refine ⟨t, ws, hexec, hlen, fun n hn => ?_⟩
  rw [hans n (by omega)]
  simp only [delayed_impulse, mul_ite, mul_zero, Finset.sum_ite_eq', Finset.mem_range]
  split
  · exact QUANT_coef_unit _
  · rfl

/-! ### The source's step order (R143) -/

/-- The history after a shift has the words that the source's buffer has at its sum, in the opposite order, where they agree on
the words that the next shift keeps. -/
theorem source_buffer_eq_reverse {B H : List Sample} (h : B.dropLast = H.dropLast.reverse) (hH : H ≠ []) (w : Sample) :
    B.dropLast ++ [w] = (shiftIn w H).reverse := by
  rw [h, shiftIn, List.dropLast_cons_of_ne_nil hH, List.reverse_cons]

/-- The source's sum over its buffer, oldest first, is the sum of R140 over the history, newest first. -/
theorem source_sum_reverse {b : Build} {H : List Sample} (hlen : H.length = b.NTAPS) :
    ∑ j ∈ Finset.range b.NTAPS, b.C (b.NTAPS - 1 - j) * (H.reverse.getD j 0).toInt = firSum b H := by
  rw [firSum_eq_sum, ← Finset.sum_range_reflect fun k => b.C k * (H.getD k 0).toInt]
  refine Finset.sum_congr rfl fun j hj => ?_
  have hj := Finset.mem_range.mp hj
  rw [List.getD_reverse _ (by omega), hlen]

/-- One call of the source's filter: its sum is the sum of R140 after the shift, and it keeps the agreement. -/
theorem sourceFirCall_eq {b : Build} {B H : List Sample} (hn : 1 ≤ b.NTAPS) (hlen : H.length = b.NTAPS)
    (h : B.dropLast = H.dropLast.reverse) (x : Int) :
    (sourceFirCall b B x).2 = firSum b (shiftIn (bits 16 x) H) ∧
      (sourceFirCall b B x).1.dropLast = (shiftIn (bits 16 x) H).dropLast.reverse := by
  have hH : H ≠ [] := List.ne_nil_of_length_pos (by omega)
  have hB : B.dropLast ++ [BitVec.ofInt 16 x] = (shiftIn (bits 16 x) H).reverse := source_buffer_eq_reverse h hH _
  rw [sourceFirCall, hB]
  refine ⟨source_sum_reverse ((shiftIn_length _ _).trans hlen), ?_⟩
  rw [List.dropLast_concat, List.tail_reverse]

theorem filterOutputs_eq_source {b : Build} (hs : b.STRUCT = .FIR) (hn : 1 ≤ b.NTAPS) (xs : List Int) {f : FilterState}
    {B : List Sample} (hlen : f.H.length = b.NTAPS) (h : B.dropLast = f.H.dropLast.reverse) :
    (filterOutputs b xs f).map Quantised.value = sourceFirOutputs b B xs := by
  induction xs generalizing f B with
  | nil => rfl
  | cons x xs ih =>
    obtain ⟨hsum, hkeep⟩ := sourceFirCall_eq hn hlen h x
    have htail := ih (f := (FIR_STEP b f x).filter) (B := (sourceFirCall b B x).1) ((shiftIn_length _ _).trans hlen) hkeep
    rw [filterOutputs, List.map_cons, filterOutput_of_fir hs, FILTER_STEP_of_fir hs, htail, sourceFirOutputs, hsum]

/-- Settles O49: the zero buffer and the zero history agree, and every call keeps the agreement. -/
theorem sourceFirOrderGivesTheSameOutputs : Obligations.SourceFirOrderGivesTheSameOutputs := by
  intro s xs hb hs hf hz hxs
  obtain ⟨t, hexec, -, -⟩ := execAll_proc xs s
  refine ⟨t, _, hexec, ?_⟩
  have hsource := filterOutputs_eq_source hs (one_le_NTAPS_of_wellFormed hb hs) xs (B := List.replicate s.build.NTAPS 0)
    (firHistory_length hs hf) (by simp [firHistory_of_allZero hs hf hz])
  rw [← hsource, List.map_map]
  refine List.map_congr_left fun q hq => ?_
  obtain ⟨hlo, hhi⟩ := filterOutputs_inRange s.build hxs s.S.filter q hq
  exact toInt_bits32 hlo hhi

/-! ### Constant inputs (R144, R146) -/

/-- As many equal inputs as there are words fill the history. -/
theorem historyAfter_replicate {H : List Sample} {m : Nat} (hm : H.length ≤ m) (x : Int) :
    historyAfter (List.replicate m x) H = List.replicate H.length (bits 16 x) := by
  rw [historyAfter, List.map_replicate, List.reverse_replicate, List.take_append_of_le_length (by simpa using hm),
    List.take_replicate, Nat.min_eq_left hm]

theorem shiftIn_replicate (w : Sample) (n : Nat) : shiftIn w (List.replicate n w) = List.replicate n w := by
  rw [shiftIn, ← List.replicate_succ, List.dropLast_replicate, Nat.add_sub_cancel]

theorem firSum_replicate (b : Build) (w : Sample) :
    firSum b (List.replicate b.NTAPS w) = w.toInt * ∑ k ∈ Finset.range b.NTAPS, b.C k := by
  rw [firSum_eq_sum, Finset.mul_sum]
  refine Finset.sum_congr rfl fun k hk => ?_
  rw [List.getD_replicate _ (Finset.mem_range.mp hk), mul_comm]

/-- Where the history holds the input everywhere, a filter step answers the DC gain and leaves the filter state as it is. -/
theorem FILTER_STEP_of_constant {b : Build} {f : FilterState} {x : Int} (hs : b.STRUCT = .FIR)
    (hH : f.H = List.replicate b.NTAPS (bits 16 x)) (hx : InSampleRange x) :
    filterOutput b f x = QUANT (x * ∑ k ∈ Finset.range b.NTAPS, b.C k) ∧ (FILTER_STEP b f x).filter = f := by
  have hshift : shiftIn (bits 16 x) f.H = f.H := by rw [hH, shiftIn_replicate]
  constructor
  · rw [filterOutput_of_fir hs, hshift, hH, firSum_replicate, toInt_bits16 hx]
  · rw [FILTER_STEP_of_fir hs, FIR_STEP, hshift]

/-- `NTAPS` or more equal inputs fill the history of a FIR build. -/
theorem filterAfter_replicate {b : Build} {f : FilterState} (hs : b.STRUCT = .FIR) (hf : Fits b f) {m : Nat}
    (hm : b.NTAPS ≤ m) (x : Int) :
    (filterAfter b (List.replicate m x) f).H = List.replicate b.NTAPS (bits 16 x) := by
  have hlen := firHistory_length hs hf
  rw [filterAfter_of_fir hs, historyAfter_replicate (hlen ▸ hm), hlen]

/-- Settles O50: the history is full of the input (`filterAfter_replicate`), and `FILTER_STEP_of_constant` is the next call. -/
theorem firSteadyState : Obligations.FirSteadyState := by
  intro s x m _ hs hf hx hm
  obtain ⟨t, hexec, hbuild, hfilter⟩ := execAll_proc (List.replicate m x) s
  rw [List.map_replicate] at hexec
  have hH : t.S.filter.H = List.replicate s.build.NTAPS (bits 16 x) := hfilter ▸ filterAfter_replicate hs hf hm x
  obtain ⟨hout, -⟩ := FILTER_STEP_of_constant hs hH hx
  refine ⟨t, _, _, hexec, fun k hk => ?_, exec_eq (.proc x) t, ?_⟩
  · exact hH ▸ List.getD_replicate _ hk
  · rw [filters_proc.response, hbuild]
    exact congrArg (fun q : Quantised => some (bits 32 q.value)) hout

/-- On a zero history mid-scale is answered by mid-scale, and the history stays zero. -/
theorem rawReply_midScale {b : Build} {f : FilterState} (hs : b.STRUCT = .FIR) (hH : f.H = List.replicate b.NTAPS 0) :
    rawReply (filterOutput b f (NORM 2048)) = ⟨2048, false⟩ ∧ (FILTER_STEP b f (NORM 2048)).filter = f := by
  obtain ⟨hout, hkeep⟩ := FILTER_STEP_of_constant (x := NORM 2048) hs hH (by decide)
  have hnorm : NORM 2048 = 0 := rfl
  refine ⟨?_, hkeep⟩
  rw [hout, hnorm, zero_mul]
  rfl

theorem replies_midScale {b : Build} {f : FilterState} (hs : b.STRUCT = .FIR) (hH : f.H = List.replicate b.NTAPS 0)
    (m : Nat) :
    (filterOutputs b (List.replicate m (NORM 2048)) f).map rawReply = List.replicate m ⟨2048, false⟩ := by
  obtain ⟨hreply, hkeep⟩ := rawReply_midScale hs hH
  induction m with
  | zero => rfl
  | succ m ih =>
    rw [List.replicate_succ, List.replicate_succ, filterOutputs, List.map_cons, hreply, hkeep, ih]

/-- Settles O52: mid-scale is the sample 0, which fills the history; a zero history answers mid-scale (`rawReply_midScale`). -/
theorem firMidScaleLaw : Obligations.FirMidScaleLaw := by
  intro s m _ hs hf
  obtain ⟨t, hexec, hbuild, hS⟩ := execAll_filtering filters_procraw (List.replicate m 2048) s
  rw [List.map_replicate, List.map_replicate] at hexec
  rw [List.map_replicate] at hS
  refine ⟨fun hm => ?_, fun hz => ?_⟩
  · have hH : t.S.filter.H = List.replicate s.build.NTAPS 0 := by
      rw [hS, commitFilter_filter]
      exact filterAfter_replicate hs hf hm (NORM 2048)
    obtain ⟨hreply, -⟩ := rawReply_midScale hs hH
    refine ⟨t, _, _, hexec, fun w hw => ?_, exec_eq (.procraw 2048) t, ?_⟩
    · exact List.eq_of_mem_replicate (hH ▸ hw)
    · rw [filters_procraw.response, hbuild, hreply]
      rfl
  · rw [replies_midScale hs (firHistory_of_allZero hs hf hz), List.map_replicate] at hexec
    exact ⟨t, hexec⟩

/-! ### The identity filter (R145) -/

/-- The raw code `c` calls before call `n`, mid-scale before the start. -/
def delayedCode (raws : List Nat) (c n : Nat) : Nat := if c ≤ n then raws.getD (n - c) 0 else 2048

theorem delayedCode_le {raws : List Nat} (hr : ∀ r ∈ raws, r ≤ 4095) (c n : Nat) : delayedCode raws c n ≤ 4095 := by
  unfold delayedCode
  split
  · rw [List.getD_eq_getElem?_getD]
    cases hget : raws[n - c]? with
    | none => simp
    | some r => exact hr r (List.mem_of_getElem? hget)
  · decide

/-- Before the start the sample is 0, which is the sample of mid-scale. -/
theorem delayed_NORM {raws : List Nat} {n : Nat} (hn : n < raws.length) (c : Nat) :
    delayed (nth (raws.map NORM)) n c = NORM (delayedCode raws c n) := by
  unfold delayed delayedCode
  split
  · have hlt : n - c < raws.length := by omega
    simp [nth, List.getD_eq_getElem?_getD, hlt]
  · rfl

/-- The convolution with the identity filter is the input delayed by the centre index, times 1.0. -/
theorem convolution_identity {b : Build} {c : Nat} (hc : c < b.NTAPS)
    (hC : ∀ k < b.NTAPS, b.C k = if k = c then 0x4000 else 0) (xs : List Int) (n : Nat) :
    convolution b xs n = 0x4000 * delayed (nth xs) n c := by
  rw [convolution, Finset.sum_eq_single_of_mem c (Finset.mem_range.mpr hc), hC c hc, if_pos rfl]
  intro k hk hne
  rw [hC k (Finset.mem_range.mp hk), if_neg hne, zero_mul]

/-- PROCRAW answers a code that comes out of the filter unchanged, and reports no saturation. -/
theorem rawReply_NORM {raw : Nat} (h : raw ≤ 4095) : rawReply (QUANT (0x4000 * NORM raw)) = ⟨raw, false⟩ := by
  rw [QUANT_unit (NORM_inRange h), rawReply, DENORM_NORM h]
  rfl

/-- Settles O51: every output is a delayed code's sample times 1.0, which PROCRAW answers exactly (`rawReply_NORM`). -/
theorem identityFirDelaysRawCodes : Obligations.IdentityFirDelaysRawCodes := by
  intro s c raws _ hs hf hz hc hC hr
  obtain ⟨t, hexec, -, hS⟩ := execAll_filtering filters_procraw raws s
  have hreplies : (filterOutputs s.build (raws.map NORM) s.S.filter).map rawReply =
      (List.range raws.length).map fun n => ⟨delayedCode raws c n, false⟩ := by
    rw [filterOutputs_fir_of_zero hs hf hz (by simpa using fun r h => NORM_inRange (hr r h)), List.length_map, List.map_map]
    refine List.map_congr_left fun n hn => ?_
    rw [Function.comp_apply, convolution_identity hc hC, delayed_NORM (List.mem_range.mp hn),
      rawReply_NORM (delayedCode_le hr c n)]
  rw [hreplies] at hexec hS
  rw [List.map_map] at hexec
  refine ⟨t, _, hexec, by simp, fun n hn => ?_, ?_⟩
  · have hle := delayedCode_le hr c n
    have hcode : InSampleRange (delayedCode raws c n) := by constructor <;> omega
    exact (answer_map_range hn hcode).trans (Nat.cast_ite _ _ _)
  · simp [hS]

end Sys2Proof.Machine
end

section
/-! The direct-form IIR structure (43_iir_direct.md). Each step sums on the histories before it and then shifts the input and the
returned output into them (`FILTER_STEP_of_direct`), so the histories are the last `NORD` inputs and outputs
(`filterAfter_of_direct`). From reset they hold what the recurrence of R161 asks for (`dfSum_of_zero`); the impulse response of
R162 is its first two calls. -/

namespace Sys2Proof.Machine

open Sys2Proof.Safety

/-! ### The outputs of a sequence of filter steps, as integers, on every structure -/

/-- The output samples of filter steps on the samples `xs`. -/
def outputValues (b : Build) (xs : List Int) (f : FilterState) : List Int := (filterOutputs b xs f).map Quantised.value

theorem outputValues_cons (b : Build) (x : Int) (xs : List Int) (f : FilterState) :
    outputValues b (x :: xs) f = (filterOutput b f x).value :: outputValues b xs (FILTER_STEP b f x).filter := rfl

@[simp] theorem outputValues_length (b : Build) (xs : List Int) (f : FilterState) :
    (outputValues b xs f).length = xs.length := by
  induction xs generalizing f with
  | nil => rfl
  | cons x xs ih => rw [outputValues_cons, List.length_cons, ih, List.length_cons]

theorem outputValues_inRange (b : Build) {xs : List Int} (hxs : ∀ x ∈ xs, InSampleRange x) (f : FilterState) :
    ∀ y ∈ outputValues b xs f, InSampleRange y :=
  List.forall_mem_map.mpr (filterOutputs_inRange b hxs f)

/-- The outputs of the first `n` calls do not depend on the inputs after them. -/
theorem outputValues_take (b : Build) (xs : List Int) (n : Nat) (f : FilterState) :
    outputValues b (xs.take n) f = (outputValues b xs f).take n := by
  induction xs generalizing n f with
  | nil => simp [outputValues, filterOutputs]
  | cons x xs ih =>
    cases n with
    | zero => rfl
    | succ n => rw [List.take_succ_cons, outputValues_cons, outputValues_cons, List.take_succ_cons, ih]

/-- Output `n` is that of one step on the filter state that the inputs before it leave. -/
theorem nth_outputValues (b : Build) {xs : List Int} {n : Nat} (hn : n < xs.length) (f : FilterState) :
    nth (outputValues b xs f) n = (filterOutput b (filterAfter b (xs.take n) f) (nth xs n)).value := by
  induction xs generalizing n f with
  | nil => simp at hn
  | cons x xs ih =>
    cases n with
    | zero => rfl
    | succ n => exact ih (Nat.lt_of_succ_lt_succ hn) _

theorem execAll_proc_outputValues (xs : List Int) (s : State) :
    ∃ t, execAll (xs.map .proc) s = some (t, (outputValues s.build xs s.S.filter).map (bits 32)) ∧
      t.build = s.build ∧ t.S.filter = filterAfter s.build xs s.S.filter := by
  obtain ⟨t, hexec, hbuild, hfilter⟩ := execAll_proc xs s
  refine ⟨t, ?_, hbuild, hfilter⟩
  rw [outputValues, List.map_map]
  exact hexec

/-- Reading a list of words that hold integers gives the integers, and 0 past its end. -/
theorem toInt_getD_map_bits {w : Nat} {ys : List Int} (h : ∀ y ∈ ys, (bits w y).toInt = y) (n : Nat) :
    ((ys.map (bits w)).getD n 0).toInt = nth ys n := by
  rw [nth, List.getD_eq_getElem?_getD, List.getD_eq_getElem?_getD, List.getElem?_map]
  cases hget : ys[n]? with
  | none => simp
  | some y => exact h y (List.mem_of_getElem? hget)

theorem toInt_bits32_of_inRange {y : Int} (h : InSampleRange y) : (bits 32 y).toInt = y := toInt_bits32 h.1 h.2

/-- Responses that hold samples are read back as they are (R71). -/
theorem answer_map_bits {ys : List Int} (h : ∀ y ∈ ys, InSampleRange y) : answer (ys.map (bits 32)) = nth ys :=
  funext fun n => toInt_getD_map_bits (fun y hy => toInt_bits32_of_inRange (h y hy)) n

/-! ### One step on a direct-form build (R160, R165) -/

theorem FILTER_STEP_of_direct {b : Build} (hs : b.STRUCT = .IIR_DIRECT) (f : FilterState) (x : Int) :
    FILTER_STEP b f x = DF_STEP b f x := by
  simp only [FILTER_STEP, hs]

theorem filterOutput_of_direct {b : Build} (hs : b.STRUCT = .IIR_DIRECT) (f : FilterState) (x : Int) :
    filterOutput b f x = QUANT (dfSum b f x) := by
  rw [filterOutput, FILTER_STEP_of_direct hs]
  rfl

theorem dfSum_eq_sum (b : Build) (f : FilterState) (x : Int) :
    dfSum b f x = b.B 0 * x + (∑ j ∈ Finset.range b.NORD, b.B (j + 1) * (f.XH.getD j 0).toInt)
      - ∑ j ∈ Finset.range b.NORD, b.A (j + 1) * (f.YH.getD j 0).toInt := by
  rw [dfSum, sumTo_eq_sum, sumTo_eq_sum]
  rfl

theorem exec_proc_of_direct {s : State} (hs : s.build.STRUCT = .IIR_DIRECT) (x : Int) :
    exec (.proc x) s = .next { s with
      S := commitFilter s.S (DF_STEP s.build s.S.filter x).filter (QUANT (dfSum s.build s.S.filter x)).saturated
      rsp := some (bits 32 (QUANT (dfSum s.build s.S.filter x)).value) } := by
  rw [exec_eq, effectOn, responseOf, FILTER_STEP_of_direct hs]
  rfl

/-- Settles O26: the new histories are the shifted ones, and the quantised sum as `QUANT_value` and `QUANT_saturated` write it. -/
theorem procOnADirectFormBuild : Obligations.ProcOnADirectFormBuild := by
  intro s x hs hn hX hY _
  refine ⟨shiftIn (bits 16 x) s.S.filter.XH, shiftIn (bits 16 (QUANT (dfSum s.build s.S.filter x)).value) s.S.filter.YH,
    _, _, rfl, rfl, ?_, ?_, ?_, ?_, fun j hj hjn => ?_, ?_⟩
  · rw [shiftIn_length, hX]
  · rw [shiftIn_length, hY]
  · exact shiftIn_getD_zero _ (by omega)
  · rw [shiftIn_getD_zero _ (by omega), QUANT_value, dfSum_eq_sum]
    rfl
  · obtain ⟨i, rfl⟩ := Nat.exists_eq_add_of_le' hj
    exact ⟨shiftIn_getD_succ _ (by omega), shiftIn_getD_succ _ (by omega)⟩
  · rw [exec_proc_of_direct hs, QUANT_saturated, DF_STEP, QUANT_value, dfSum_eq_sum]
    rfl

/-! ### The histories of a direct-form build are the last `NORD` inputs and outputs (R30) -/

theorem filterAfter_of_direct {b : Build} (hs : b.STRUCT = .IIR_DIRECT) (xs : List Int) (f : FilterState) :
    filterAfter b xs f =
      { f with XH := historyAfter xs f.XH, YH := historyAfter (outputValues b xs f) f.YH } := by
  induction xs generalizing f with
  | nil => rw [outputValues, filterOutputs, List.map_nil, historyAfter_nil, historyAfter_nil]; rfl
  | cons x xs ih =>
    rw [filterAfter, ih, outputValues_cons, filterOutput_of_direct hs, FILTER_STEP_of_direct hs, historyAfter_cons,
      historyAfter_cons]
    rfl

theorem directHistories_length {b : Build} {f : FilterState} (hs : b.STRUCT = .IIR_DIRECT) (hf : Fits b f) :
    f.XH.length = b.NORD ∧ f.YH.length = b.NORD := by
  obtain ⟨_, hX, hY, _⟩ := hf
  exact ⟨by rw [hX, if_pos hs], by rw [hY, if_pos hs]⟩

theorem directHistories_of_allZero {b : Build} {f : FilterState} (hs : b.STRUCT = .IIR_DIRECT) (hf : Fits b f)
    (hz : AllZero f) : f.XH = List.replicate b.NORD 0 ∧ f.YH = List.replicate b.NORD 0 := by
  obtain ⟨hlenX, hlenY⟩ := directHistories_length hs hf
  obtain ⟨_, hX, hY, _⟩ := hz
  exact ⟨List.eq_replicate_iff.mpr ⟨hlenX, hX⟩, List.eq_replicate_iff.mpr ⟨hlenY, hY⟩⟩

theorem one_le_NORD_of_wellFormed {b : Build} (hb : b.wellFormed = true) (hs : b.STRUCT = .IIR_DIRECT) : 1 ≤ b.NORD := by
  obtain ⟨hlen, _⟩ := Build.wellFormed_iff.mp hb
  simpa only [Build.LEN, hs] using hlen

/-! ### The recurrence from reset (R161, R162) -/

/-- What came before call `n` does not depend on call `n` and those after it. -/
theorem delayed_succ_nth_take (xs : List Int) (n k : Nat) :
    delayed (nth (xs.take n)) n (k + 1) = delayed (nth xs) n (k + 1) := by
  simp only [delayed]
  split
  · have hlt : n - (k + 1) < n := by omega
    simp [nth, List.getD_eq_getElem?_getD, hlt]
  · rfl

/-- From zero, after the first `n` of the values `xs`, entry `k` of the history is the value `k + 1` calls before call `n`. -/
theorem historyAfter_take_zero_getD {xs : List Int} (hxs : ∀ x ∈ xs, InSampleRange x) {n m k : Nat} (hn : n ≤ xs.length)
    (hk : k < m) :
    ((historyAfter (xs.take n) (List.replicate m 0)).getD k 0).toInt = delayed (nth xs) n (k + 1) := by
  rw [historyAfter_zero_getD (fun x hx => hxs x (List.mem_of_mem_take hx)) hk, List.length_take, Nat.min_eq_left hn,
    delayed_succ_nth_take]

/-- From reset the histories hold, before call `n`, the inputs and the outputs of the calls before it. -/
theorem directHistories_of_zero {b : Build} {f : FilterState} (hs : b.STRUCT = .IIR_DIRECT) (hf : Fits b f) (hz : AllZero f)
    {xs : List Int} (hxs : ∀ x ∈ xs, InSampleRange x) {n j : Nat} (hn : n ≤ xs.length) (hj : j < b.NORD) :
    ((filterAfter b (xs.take n) f).XH.getD j 0).toInt = delayed (nth xs) n (j + 1) ∧
      ((filterAfter b (xs.take n) f).YH.getD j 0).toInt = delayed (nth (outputValues b xs f)) n (j + 1) := by
  obtain ⟨hX, hY⟩ := directHistories_of_allZero hs hf hz
  rw [filterAfter_of_direct hs, outputValues_take, hX, hY]
  exact ⟨historyAfter_take_zero_getD hxs hn hj,
    historyAfter_take_zero_getD (outputValues_inRange b hxs f) (by rwa [outputValues_length]) hj⟩

/-- The sum of R161 at call `n`, over the inputs `x` and the outputs `y`. -/
def recurrence (b : Build) (x y : Nat → Int) (n : Nat) : Int :=
  b.B 0 * x n + (∑ i ∈ Finset.range b.NORD, b.B (i + 1) * delayed x n (i + 1))
    - ∑ i ∈ Finset.range b.NORD, b.A (i + 1) * delayed y n (i + 1)

/-- From reset the sum of call `n` is that of the recurrence. -/
theorem dfSum_of_zero {b : Build} {f : FilterState} (hs : b.STRUCT = .IIR_DIRECT) (hf : Fits b f) (hz : AllZero f)
    {xs : List Int} (hxs : ∀ x ∈ xs, InSampleRange x) {n : Nat} (hn : n < xs.length) :
    dfSum b (filterAfter b (xs.take n) f) (nth xs n) = recurrence b (nth xs) (nth (outputValues b xs f)) n := by
  have hhist := fun j hj => directHistories_of_zero hs hf hz hxs (j := j) hn.le (Finset.mem_range.mp hj)
  rw [dfSum_eq_sum, recurrence]
  congr 1
  · exact congrArg (_ + ·) (Finset.sum_congr rfl fun j hj => by rw [(hhist j hj).1])
  · exact Finset.sum_congr rfl fun j hj => by rw [(hhist j hj).2]

/-- Settles O53: `dfSum_of_zero` for the answers, `directHistories_of_zero` after all inputs for the histories. -/
theorem directFormRecurrenceLaw : Obligations.DirectFormRecurrenceLaw := by
  intro s xs _ hs hf hz hxs
  obtain ⟨t, hexec, -, hfilter⟩ := execAll_proc_outputValues xs s
  have hans := answer_map_bits (outputValues_inRange s.build hxs s.S.filter)
  refine ⟨t, _, hexec, by simp, fun n hn => ?_, fun j hj => ?_⟩
  · rw [hans, nth_outputValues s.build hn, filterOutput_of_direct hs, dfSum_of_zero hs hf hz hxs hn]
    rfl
  · rw [hans, hfilter]
    simpa only [List.take_length] using directHistories_of_zero hs hf hz hxs le_rfl hj

theorem recurrence_zero (b : Build) (x y : Nat → Int) : recurrence b x y 0 = b.B 0 * x 0 := by
  simp [recurrence, delayed]

theorem delayed_one_succ (z : Nat → Int) (i : Nat) : delayed z 1 (i + 1) = if i = 0 then z 0 else 0 := by
  cases i <;> simp [delayed]

/-- At call 1 only the terms of call 0 are left of the two sums. -/
theorem recurrence_one {b : Build} (hn : 1 ≤ b.NORD) (x y : Nat → Int) :
    recurrence b x y 1 = b.B 0 * x 1 + b.B 1 * x 0 - b.A 1 * y 0 := by
  have hmem : 0 < b.NORD := hn
  simp only [recurrence, delayed_one_succ, mul_ite, mul_zero, Finset.sum_ite_eq', Finset.mem_range, if_pos hmem, zero_add]

/-- Settles O54: the recurrence law on the impulse, at calls 0 and 1. -/
theorem directFormImpulseShowsShiftAfterSum : Obligations.DirectFormImpulseShowsShiftAfterSum := by
  intro s hb hs hf hz
  obtain ⟨t, ws, hexec, hlen, hans, -⟩ := directFormRecurrenceLaw s [0x4000, 0] hb hs hf hz (by simp [InSampleRange])
  obtain ⟨w₀, w₁, rfl⟩ := List.length_eq_two.mp hlen
  refine ⟨t, w₀, w₁, hexec, ?_, ?_⟩
  · have h0 : w₀.toInt = (QUANT (recurrence s.build (nth [0x4000, 0]) (answer [w₀, w₁]) 0)).value := hans 0 (by decide)
    rw [h0, recurrence_zero]
    exact QUANT_coef_unit _
  · have h1 : w₁.toInt = (QUANT (recurrence s.build (nth [0x4000, 0]) (answer [w₀, w₁]) 1)).value := hans 1 (by decide)
    rw [h1, recurrence_one (one_le_NORD_of_wellFormed hb hs)]
    simp [nth, answer]

/-! ### Constant input and output (R163) -/

theorem sum_mul_word_of_constant {n : Nat} {l : List Sample} {z : Int} (hl : ∀ j < n, (l.getD j 0).toInt = z)
    (c : Nat → Int) : ∑ j ∈ Finset.range n, c j * (l.getD j 0).toInt = (∑ j ∈ Finset.range n, c j) * z := by
  rw [Finset.sum_mul]
  exact Finset.sum_congr rfl fun j hj => by rw [hl j (Finset.mem_range.mp hj)]

/-- Where the histories hold the input and the output everywhere, the sum is `x * SB - y * SA`. -/
theorem dfSum_of_constant {b : Build} {f : FilterState} {x y : Int} (hX : ∀ j < b.NORD, (f.XH.getD j 0).toInt = x)
    (hY : ∀ j < b.NORD, (f.YH.getD j 0).toInt = y) :
    dfSum b f x =
      x * (∑ i ∈ Finset.range (b.NORD + 1), b.B i) - y * ∑ i ∈ Finset.range b.NORD, b.A (i + 1) := by
  rw [dfSum_eq_sum, sum_mul_word_of_constant hX, sum_mul_word_of_constant hY, Finset.sum_range_succ']
  ring

theorem toInt_getD_of_forall_mem {l : List Sample} {x : Int} (h : ∀ w ∈ l, w.toInt = x) {j : Nat} (hj : j < l.length) :
    (l.getD j 0).toInt = x := by
  rw [List.getD_eq_getElem _ _ hj]
  exact h _ (List.getElem_mem hj)

/-- An unsaturated output is the rounded sum. -/
theorem QUANT_value_of_unsaturated {a : Int} (h : (QUANT a).saturated = false) : (QUANT a).value = RND14 a :=
  SAT16_of_inRange (saturates_eq_false.mp h)

/-- A PROC that answers `y` and leaves `SAT` clear has rounded its sum to `y`. -/
theorem RND14_dfSum_of_answer {s t : State} {x y : Int} (hs : s.build.STRUCT = .IIR_DIRECT) (hy : InSampleRange y)
    (hexec : exec (.proc x) s = .next t) (hrsp : t.rsp = some (bits 32 y)) (hsat : t.S.SAT = false) :
    RND14 (dfSum s.build s.S.filter x) = y := by
  rw [exec_proc_of_direct hs] at hexec
  cases hexec
  obtain ⟨-, hquant⟩ := Bool.or_eq_false_iff.mp hsat
  have hvalue := congrArg BitVec.toInt (Option.some.inj hrsp)
  rwa [toInt_bits32_of_inRange (QUANT_inRange _), toInt_bits32_of_inRange hy, QUANT_value_of_unsaturated hquant] at hvalue

/-- A distance to a multiple of `d`, divided by `d`. -/
theorem abs_sub_div_le {y n d : Int} {e : ℚ} (hd : 0 < d) (h : |(y : ℚ) * d - n| ≤ e) : |(y : ℚ) - n / d| ≤ e / d := by
  have hpos : (0 : ℚ) < d := Int.cast_pos.mpr hd
  have hquot : (y : ℚ) - n / d = (y * d - n) / d := by field_simp
  rw [hquot, abs_div, abs_of_pos hpos]
  exact div_le_div_of_nonneg_right h hpos.le

/-- Settles O55: the sum is `x * SB - y * SA` and rounds to `y`, so it is within `2^13` of `y * 2^14` (`RND14_nearest`). -/
theorem directFormDcLaw : Obligations.DirectFormDcLaw := by
  intro s t x y _ hs hf _ hy hpos hX hY hexec hrsp hsat
  obtain ⟨hlenX, hlenY⟩ := directHistories_length hs hf
  have hsum := dfSum_of_constant (b := s.build) (fun j hj => toInt_getD_of_forall_mem hX (hlenX ▸ hj))
    (fun j hj => toInt_getD_of_forall_mem hY (hlenY ▸ hj))
  have hround := RND14_dfSum_of_answer hs hy hexec hrsp hsat
  obtain ⟨hlo, hhi⟩ := RND14_nearest (dfSum s.build s.S.filter x)
  rw [hround, hsum] at hlo hhi
  generalize hSB : ∑ i ∈ Finset.range (s.build.NORD + 1), s.build.B i = SB at *
  generalize hSA : ∑ i ∈ Finset.range s.build.NORD, s.build.A (i + 1) = SA at *
  have hdist : -(2 ^ 13) ≤ x * SB - y * (2 ^ 14 + SA) ∧ x * SB - y * (2 ^ 14 + SA) < 2 ^ 13 := by
    constructor <;> linarith
  refine ⟨hdist, ?_⟩
  have habs : |y * (2 ^ 14 + SA) - x * SB| ≤ 2 ^ 13 := abs_le.mpr ⟨by linarith, by linarith⟩
  have hcast := abs_sub_div_le (y := y) (n := x * SB) (e := 2 ^ 13) hpos (by exact_mod_cast habs)
  rwa [Int.cast_mul] at hcast

/-! ### Zero input (R164) -/

/-- With at least as many values as words, entry `k` of the history is the value `k` before the last. -/
theorem historyAfter_getD_of_lt {xs : List Int} {H : List Sample} {k : Nat} (hx : k < xs.length) (hH : k < H.length) :
    (historyAfter xs H).getD k 0 = (xs.reverse.map (bits 16)).getD k 0 := by
  rw [historyAfter, List.getD_eq_getElem?_getD, List.getElem?_take_of_lt hH, ← List.getD_eq_getElem?_getD,
    List.getD_append _ _ _ _ (by simpa using hx), List.map_reverse]

/-- On a zero input history the feedback alone is left of the sum of an input 0. -/
theorem dfSum_of_zero_input {b : Build} {f : FilterState} (hX : ∀ j < b.NORD, (f.XH.getD j 0).toInt = 0) :
    dfSum b f 0 = -∑ j ∈ Finset.range b.NORD, b.A (j + 1) * (f.YH.getD j 0).toInt := by
  rw [dfSum_eq_sum, sum_mul_word_of_constant hX, mul_zero, mul_zero, add_zero, zero_sub]

/-- Settles O56: `NORD` zeros fill `XH` (`historyAfter_replicate`), the last answers fill `YH` (`historyAfter_getD_of_lt`), and
`dfSum_of_zero_input` is the sum of the next call. -/
theorem directFormZeroInput : Obligations.DirectFormZeroInput := by
  intro s m _ hs hf hm
  obtain ⟨t, hexec, hbuild, hfilter⟩ := execAll_proc_outputValues (List.replicate m 0) s
  rw [List.map_replicate] at hexec
  obtain ⟨hlenX, hlenY⟩ := directHistories_length hs hf
  have hys := outputValues_inRange s.build (xs := List.replicate m 0) (by simp [InSampleRange]) s.S.filter
  have hlen := outputValues_length s.build (List.replicate m 0) s.S.filter
  rw [List.length_replicate] at hlen
  rw [filterAfter_of_direct hs, historyAfter_replicate (hlenX ▸ hm)] at hfilter
  generalize outputValues s.build (List.replicate m 0) s.S.filter = ys at *
  have hX : ∀ w ∈ t.S.filter.XH, w = 0#16 := fun w hw => List.eq_of_mem_replicate (by rwa [hfilter] at hw)
  refine ⟨t, _, _, hexec, hX, List.forall_mem_map.mpr fun y hy => ?_, fun i hi => ?_, exec_eq (.proc 0) t, ?_⟩
  · rw [toInt_bits32_of_inRange (hys y hy)]
    exact hys y hy
  · have hrev : ∀ y ∈ ys.reverse, InSampleRange y := fun y hy => hys y (List.mem_reverse.mp hy)
    rw [hfilter, historyAfter_getD_of_lt (by omega) (by omega), ← List.map_reverse,
      toInt_getD_map_bits fun y hy => toInt_bits16 (hrev y hy)]
    exact (congrFun (answer_map_bits hrev) i).symm
  · have hXlen : t.S.filter.XH.length = s.build.NORD := by rw [hfilter, List.length_replicate, hlenX]
    have hzero := dfSum_of_zero_input (b := s.build) (f := t.S.filter) fun j hj =>
      toInt_getD_of_forall_mem (fun w hw => by rw [hX w hw]; rfl) (hXlen ▸ hj)
    rw [filters_proc.response, hbuild, ← hzero]
    exact congrArg (fun q : Quantised => some (bits 32 q.value)) (filterOutput_of_direct hs t.S.filter 0)

end Sys2Proof.Machine
end

section
/-! The biquad cascade structure (44_iir_cascade.md). The input of each section is the quantised output of the one before it
(`sectionInput`), so one step gives every section the state, the output and the report that `CAS_STEP_eq` writes section by
section. From reset each section's state holds the two last values of its input and its output (`cascadeStates_of_zero`), which
gives the recurrence of R181; a step that leaves the sections as they are gives the bound of R184. -/

namespace Sys2Proof.Machine

open Sys2Proof.Safety

/-! ### One step on a cascade build (R180, R182, R183) -/

/-- The input of section `i` in a step with input `x` on the sections `cs`; the output of the last one comes after it. -/
def sectionInput (b : Build) (cs : List SectionState) (x : Int) : Nat → Int
  | 0 => x
  | i + 1 => (QUANT (sectionSum b i (cs.getD i ⟨0, 0, 0, 0⟩) (sectionInput b cs x i))).value

/-- The sum of section `i` in that step. -/
def sectionTotal (b : Build) (cs : List SectionState) (x : Int) (i : Nat) : Int :=
  sectionSum b i (cs.getD i ⟨0, 0, 0, 0⟩) (sectionInput b cs x i)

theorem sectionInput_succ (b : Build) (cs : List SectionState) (x : Int) (i : Nat) :
    sectionInput b cs x (i + 1) = (QUANT (sectionTotal b cs x i)).value := rfl

theorem sectionTotal_of_getElem? {cs : List SectionState} {i : Nat} {c : SectionState} (h : cs[i]? = some c) (b : Build)
    (x : Int) : sectionTotal b cs x i = sectionSum b i c (sectionInput b cs x i) := by
  rw [sectionTotal, List.getD_eq_getElem?_getD, h, Option.getD_some]

theorem sectionInput_inRange (b : Build) (cs : List SectionState) {x : Int} (hx : InSampleRange x) (i : Nat) :
    InSampleRange (sectionInput b cs x i) := by
  cases i with
  | zero => exact hx
  | succ i => exact QUANT_inRange _

/-- Running sections, given the sequence `v` of their inputs: each section's update, the output of the last, and whether some
section saturates. -/
theorem runSections_eq {b : Build} {v : Nat → Int} (cs : List SectionState) (s : Nat)
    (hv : ∀ p ∈ cs.zipIdx s, v (p.2 + 1) = (QUANT (sectionSum b p.2 p.1 (v p.2))).value) :
    runSections b s (v s) cs =
      ⟨(cs.zipIdx s).map fun p => sectionUpdate p.1 (v p.2) (v (p.2 + 1)), v (s + cs.length),
        (cs.zipIdx s).any fun p => (QUANT (sectionSum b p.2 p.1 (v p.2))).saturated⟩ := by
  induction cs generalizing s with
  | nil => rfl
  | cons c cs ih =>
    rw [List.zipIdx_cons, List.forall_mem_cons] at hv
    obtain ⟨hfirst, hrest⟩ := hv
    rw [runSections, ← hfirst, ih (s + 1) hrest, List.zipIdx_cons, List.map_cons, List.any_cons, List.length_cons,
      Nat.add_right_comm, Nat.add_assoc]

theorem CAS_STEP_eq (b : Build) (f : FilterState) (x : Int) :
    CAS_STEP b f x =
      ⟨{ f with SEC := f.SEC.zipIdx.map fun p =>
          sectionUpdate p.1 (sectionInput b f.SEC x p.2) (sectionInput b f.SEC x (p.2 + 1)) },
        sectionInput b f.SEC x f.SEC.length,
        f.SEC.zipIdx.any fun p => (QUANT (sectionSum b p.2 p.1 (sectionInput b f.SEC x p.2))).saturated⟩ := by
  have hrun := runSections_eq (b := b) (v := sectionInput b f.SEC x) f.SEC 0 fun p hp => by
    rw [sectionInput_succ, sectionTotal_of_getElem? (List.mem_zipIdx_iff_getElem?.mp hp)]
  rw [Nat.zero_add] at hrun
  exact congrArg (fun r : CascadeResult => (⟨{ f with SEC := r.sections }, r.y, r.saturated⟩ : FilterResult)) hrun

theorem CAS_STEP_section (b : Build) {f : FilterState} (x : Int) {i : Nat} {c : SectionState} (h : f.SEC[i]? = some c) :
    (CAS_STEP b f x).filter.SEC[i]? =
      some (sectionUpdate c (sectionInput b f.SEC x i) (sectionInput b f.SEC x (i + 1))) := by
  simp [CAS_STEP_eq, h]

theorem CAS_STEP_y (b : Build) (f : FilterState) (x : Int) :
    (CAS_STEP b f x).y = sectionInput b f.SEC x f.SEC.length := by
  rw [CAS_STEP_eq]

theorem CAS_STEP_saturated_iff (b : Build) (f : FilterState) (x : Int) :
    (CAS_STEP b f x).saturated = true ↔ ∃ i < f.SEC.length, (QUANT (sectionTotal b f.SEC x i)).saturated = true := by
  rw [CAS_STEP_eq, List.any_eq_true]
  constructor
  · rintro ⟨⟨c, i⟩, hmem, hsat⟩
    have hget : f.SEC[i]? = some c := List.mem_zipIdx_iff_getElem?.mp hmem
    exact ⟨i, (List.getElem?_eq_some_iff.mp hget).1, by rwa [sectionTotal_of_getElem? hget]⟩
  · rintro ⟨i, hi, hsat⟩
    have hget : f.SEC[i]? = some f.SEC[i] := List.getElem?_eq_getElem hi
    exact ⟨(f.SEC[i], i), List.mem_zipIdx_iff_getElem?.mpr hget, by rwa [sectionTotal_of_getElem? hget] at hsat⟩

theorem FILTER_STEP_of_cascade {b : Build} (hs : b.STRUCT = .IIR_CASCADE) (f : FilterState) (x : Int) :
    FILTER_STEP b f x = CAS_STEP b f x := by
  simp only [FILTER_STEP, hs]

theorem exec_proc_of_cascade {s : State} (hs : s.build.STRUCT = .IIR_CASCADE) (x : Int) :
    exec (.proc x) s = .next { s with
      S := commitFilter s.S (CAS_STEP s.build s.S.filter x).filter (CAS_STEP s.build s.S.filter x).saturated
      rsp := some (bits 32 (CAS_STEP s.build s.S.filter x).y) } := by
  rw [exec_eq, effectOn, responseOf, FILTER_STEP_of_cascade hs]

/-- Settles O27: `sectionInput` is the sequence of inputs; section `i` has the update of `CAS_STEP_section`, and its quantised sum
is as `QUANT_value` and `QUANT_saturated` write it. -/
theorem procOnACascadeBuild : Obligations.ProcOnACascadeBuild := by
  intro s x hs hlen _
  refine ⟨(CAS_STEP s.build s.S.filter x).filter.SEC, sectionInput s.build s.S.filter.SEC x,
    fun i => (sectionTotal s.build s.S.filter.SEC x i + 8192) / 16384, (CAS_STEP s.build s.S.filter x).saturated,
    rfl, ?_, fun i hi => ?_, ?_, ?_⟩
  · rw [← hlen]
    exact runSections_length s.build 0 x s.S.filter.SEC
  · have hget := List.getElem?_eq_getElem (hlen ▸ hi)
    have hsum := sectionTotal_of_getElem? hget s.build x
    exact ⟨_, hget, congrArg (fun a => (a + 8192) / 16384) hsum, QUANT_value _, CAS_STEP_section s.build x hget⟩
  · simp only [CAS_STEP_saturated_iff, hlen, QUANT_saturated, decide_eq_true_eq]
  · rw [exec_proc_of_cascade hs, CAS_STEP_y, hlen]
    rfl

/-! ### The recurrence from reset (R181) -/

theorem filterAfter_append (b : Build) (xs ys : List Int) (f : FilterState) :
    filterAfter b (xs ++ ys) f = filterAfter b ys (filterAfter b xs f) := by
  induction xs generalizing f with
  | nil => rfl
  | cons x xs ih => exact ih _

/-- The filter state before call `n + 1` is what call `n` leaves. -/
theorem filterAfter_take_succ (b : Build) {xs : List Int} {n : Nat} (hn : n < xs.length) (f : FilterState) :
    filterAfter b (xs.take (n + 1)) f = (FILTER_STEP b (filterAfter b (xs.take n) f) (nth xs n)).filter := by
  rw [List.take_add_one, List.getElem?_eq_getElem hn, filterAfter_append, nth, List.getD_eq_getElem _ _ hn]
  rfl

theorem filterAfter_fits {b : Build} {f : FilterState} (hf : Fits b f) (xs : List Int) : Fits b (filterAfter b xs f) := by
  induction xs generalizing f with
  | nil => exact hf
  | cons x xs ih => exact ih (FILTER_STEP_fits x hf)

theorem sections_length {b : Build} {f : FilterState} (hs : b.STRUCT = .IIR_CASCADE) (hf : Fits b f) :
    f.SEC.length = b.NSEC := by
  obtain ⟨_, _, _, hSEC⟩ := hf
  rw [hSEC, if_pos hs]

theorem delayed_succ_succ (z : Nat → Int) (n d : Nat) : delayed z (n + 1) (d + 1) = delayed z n d := by
  simp only [delayed, Nat.add_le_add_iff_right, Nat.add_sub_add_right]

theorem delayed_zero (z : Nat → Int) (n : Nat) : delayed z n 0 = z n := rfl

/-- Before call `n` the section's state holds the two last values of its input `u` and of its output `w`. -/
def SectionState.Holds (c : SectionState) (u w : Nat → Int) (n : Nat) : Prop :=
  c.SX1.toInt = delayed u n 1 ∧ c.SX2.toInt = delayed u n 2 ∧ c.SY1.toInt = delayed w n 1 ∧ c.SY2.toInt = delayed w n 2

theorem zero_holds (u w : Nat → Int) : SectionState.Holds ⟨0, 0, 0, 0⟩ u w 0 := ⟨rfl, rfl, rfl, rfl⟩

/-- A section's update keeps what its state holds. -/
theorem sectionUpdate_holds {c : SectionState} {u w : Nat → Int} {n : Nat} (h : c.Holds u w n) (hu : InSampleRange (u n))
    (hw : InSampleRange (w n)) : (sectionUpdate c (u n) (w n)).Holds u w (n + 1) := by
  obtain ⟨hSX1, _, hSY1, _⟩ := h
  simp only [SectionState.Holds, delayed_succ_succ, delayed_zero]
  exact ⟨toInt_bits16 hu, hSX1, toInt_bits16 hw, hSY1⟩

/-- The input of section `i` in call `n` of PROC on the samples `xs`, from the filter state `f`. -/
def cascadeInput (b : Build) (xs : List Int) (f : FilterState) (i n : Nat) : Int :=
  sectionInput b (filterAfter b (xs.take n) f).SEC (nth xs n) i

/-- From reset the state of each section holds, before call `n`, its two last inputs and outputs. -/
theorem cascadeStates_of_zero {b : Build} {f : FilterState} (hs : b.STRUCT = .IIR_CASCADE) (hf : Fits b f) (hz : AllZero f)
    {xs : List Int} (hxs : ∀ x ∈ xs, InSampleRange x) {i : Nat} (hi : i < b.NSEC) {n : Nat} (hn : n ≤ xs.length) :
    ∃ c, (filterAfter b (xs.take n) f).SEC[i]? = some c ∧
      c.Holds (cascadeInput b xs f i) (cascadeInput b xs f (i + 1)) n := by
  induction n with
  | zero =>
    obtain ⟨_, _, _, hSEC⟩ := hz
    have hget := List.getElem?_eq_getElem (sections_length hs hf ▸ hi)
    exact ⟨_, hget, hSEC _ (List.mem_of_getElem? hget) ▸ zero_holds _ _⟩
  | succ n ih =>
    obtain ⟨c, hget, hholds⟩ := ih (Nat.le_of_succ_le hn)
    have hx : InSampleRange (nth xs n) := by
      rw [nth, List.getD_eq_getElem _ _ hn]
      exact hxs _ (List.getElem_mem hn)
    rw [filterAfter_take_succ b hn, FILTER_STEP_of_cascade hs]
    exact ⟨_, CAS_STEP_section b _ hget,
      sectionUpdate_holds hholds (sectionInput_inRange b _ hx i) (sectionInput_inRange b _ hx (i + 1))⟩

/-- The sum of R181 for section `i` at call `n`, over its inputs `u` and its outputs `w`. -/
def sectionRecurrence (b : Build) (i : Nat) (u w : Nat → Int) (n : Nat) : Int :=
  b.b0 i * u n + b.b1 i * delayed u n 1 + b.b2 i * delayed u n 2 - b.a1 i * delayed w n 1 - b.a2 i * delayed w n 2

theorem sectionSum_of_holds {c : SectionState} {u w : Nat → Int} {n : Nat} (h : c.Holds u w n) (b : Build) (i : Nat) :
    sectionSum b i c (u n) = sectionRecurrence b i u w n := by
  obtain ⟨hSX1, hSX2, hSY1, hSY2⟩ := h
  rw [sectionSum, hSX1, hSX2, hSY1, hSY2, sectionRecurrence]

theorem cascadeInput_succ_of_zero {b : Build} {f : FilterState} (hs : b.STRUCT = .IIR_CASCADE) (hf : Fits b f)
    (hz : AllZero f) {xs : List Int} (hxs : ∀ x ∈ xs, InSampleRange x) {i : Nat} (hi : i < b.NSEC) {n : Nat}
    (hn : n ≤ xs.length) :
    cascadeInput b xs f (i + 1) n =
      (QUANT (sectionRecurrence b i (cascadeInput b xs f i) (cascadeInput b xs f (i + 1)) n)).value := by
  obtain ⟨c, hget, hholds⟩ := cascadeStates_of_zero hs hf hz hxs hi hn
  rw [← sectionSum_of_holds hholds, cascadeInput, sectionInput_succ, sectionTotal_of_getElem? hget]
  rfl

theorem nth_outputValues_of_cascade {b : Build} {f : FilterState} (hs : b.STRUCT = .IIR_CASCADE) (hf : Fits b f)
    {xs : List Int} {n : Nat} (hn : n < xs.length) :
    nth (outputValues b xs f) n = cascadeInput b xs f b.NSEC n := by
  rw [nth_outputValues b hn, filterOutput, FILTER_STEP_of_cascade hs, CAS_STEP_y,
    sections_length hs (filterAfter_fits hf _)]
  rfl

/-- Settles O57: the sequences are `cascadeInput`, by `cascadeInput_succ_of_zero` for their recurrence and
`cascadeStates_of_zero` after all inputs for the states. -/
theorem cascadeRecurrenceLaw : Obligations.CascadeRecurrenceLaw := by
  intro s xs _ hs hf hz hxs
  obtain ⟨t, hexec, -, hfilter⟩ := execAll_proc_outputValues xs s
  refine ⟨t, _, cascadeInput s.build xs s.S.filter, hexec, by simp, fun n hn => ⟨rfl, ?_, fun i hi => ?_⟩,
    fun i hi => ?_⟩
  · rw [answer_map_bits (outputValues_inRange s.build hxs s.S.filter), nth_outputValues_of_cascade hs hf hn]
  · exact cascadeInput_succ_of_zero hs hf hz hxs hi hn.le
  · have hstates := cascadeStates_of_zero hs hf hz hxs hi le_rfl
    rwa [List.take_length, ← hfilter] at hstates

/-! ### Constant sections (R184) -/

/-- A section that its update leaves as it was holds its input `v` twice and its output `w` twice. -/
theorem words_of_sectionUpdate_eq {c : SectionState} {v w : Int} (hv : InSampleRange v) (hw : InSampleRange w)
    (h : sectionUpdate c v w = c) :
    c.SX1.toInt = v ∧ c.SX2.toInt = v ∧ c.SY1.toInt = w ∧ c.SY2.toInt = w := by
  -- `c` is its own update twice over, and two updates fill all four words
  rw [← h, ← h]
  exact ⟨toInt_bits16 hv, toInt_bits16 hv, toInt_bits16 hw, toInt_bits16 hw⟩

theorem sectionSum_of_constant {c : SectionState} {v w : Int}
    (h : c.SX1.toInt = v ∧ c.SX2.toInt = v ∧ c.SY1.toInt = w ∧ c.SY2.toInt = w) (b : Build) (i : Nat) :
    sectionSum b i c v = v * (b.b0 i + b.b1 i + b.b2 i) - w * (b.a1 i + b.a2 i) := by
  obtain ⟨hSX1, hSX2, hSY1, hSY2⟩ := h
  rw [sectionSum, hSX1, hSX2, hSY1, hSY2]
  ring

/-- Settles O58: every section is left as it was, so its sum is `SX1 * SB - SY1 * SA`; unsaturated, it rounds to `SY1`, so it is
within `2^13` of `SY1 * 2^14` (`RND14_nearest`). -/
theorem cascadeDcLaw : Obligations.CascadeDcLaw := by
  intro s t x _ hs _ hx hexec hsame hsat i c hget
  rw [exec_proc_of_cascade hs] at hexec
  cases hexec
  obtain ⟨-, hunsat⟩ := Bool.or_eq_false_iff.mp hsat
  have hupdate : sectionUpdate c _ _ = c :=
    Option.some.inj ((CAS_STEP_section s.build x hget).symm.trans ((congrArg (·.SEC[i]?) hsame).trans hget))
  have hwords := words_of_sectionUpdate_eq (sectionInput_inRange _ _ hx _) (sectionInput_inRange _ _ hx _) hupdate
  have hsum := (sectionTotal_of_getElem? hget s.build x).trans (sectionSum_of_constant hwords s.build i)
  have hquant : (QUANT (sectionTotal s.build s.S.filter.SEC x i)).saturated = false :=
    Bool.eq_false_iff.mpr fun hquant => Bool.eq_false_iff.mp hunsat <|
      (CAS_STEP_saturated_iff _ _ _).mpr ⟨i, (List.getElem?_eq_some_iff.mp hget).1, hquant⟩
  have hround := QUANT_value_of_unsaturated hquant
  rw [← sectionInput_succ] at hround
  obtain ⟨hlo, hhi⟩ := RND14_nearest (sectionTotal s.build s.S.filter.SEC x i)
  rw [← hround, hsum] at hlo hhi
  obtain ⟨hSX1, -, hSY1, -⟩ := hwords
  rw [hSX1, hSY1]
  constructor <;> linarith

end Sys2Proof.Machine
end

section
/-! The exception `IllegalCommand` and the loss of power (60_exceptions.md). -/

namespace Sys2Proof.Machine

open Sys2Proof.Safety

/-! ### An accepted illegal word (R201) -/

/-- Settles O8: the step executes the word, and a word that is not `LEGAL` decodes to no command. -/
theorem illegalCommandOnlySetsErr : Obligations.IllegalCommandOnlySetsErr :=
  fun _ _ _ _ ho hl => (step_of_offers ho).trans (runCommand_of_illegal (decode_of_not_LEGAL hl) _)

/-! ### Loss of power (R211, R222) -/

/-- What `S` holds at power-up is unspecified, but it has exactly the words of the build's structure (log 9). -/
theorem atPowerUp_fits (b : Build) (n : Nat) : Fits b (Engine.atPowerUp b n).filter := ofWords_fits b _

/-- A loss of power takes effect in every phase, in reset too (log 23). -/
theorem step_of_powerCycle {s : State} {es : List Event} (hb : s.build.wellFormed = true)
    (hs : s.schedule = .powerCycle :: es) : step s = .next (State.powerLoss { s with schedule := es }) :=
  step_eq hb hs

/-- Settles O18: the step is `State.powerLoss`, and the power-up contents of `S` have the build's shape. -/
theorem powerLossNeedsAReset : Obligations.PowerLossNeedsAReset :=
  fun s _ hb hs => ⟨_, step_of_powerCycle hb hs, rfl, rfl, rfl, atPowerUp_fits s.build s.choices, rfl, rfl, rfl⟩

end Sys2Proof.Machine
end

section
/-! Reset (70_reset_and_hazards.md section 1): what asserting and releasing it do, what happens while it is asserted and before
it first is (R220, R221, R222); and where a TICK during the filtering goes (R224). -/

namespace Sys2Proof.Machine

open Sys2Proof.Safety

/-! ### Asserting and releasing reset (R220, R36) -/

/-- Reset is asserted in every phase alike. -/
theorem step_of_resetAssert {s : State} {es : List Event} (hb : s.build.wellFormed = true)
    (hs : s.schedule = .resetAssert :: es) : step s = .next (State.enterReset { s with schedule := es }) :=
  step_eq hb hs

theorem step_of_resetRelease {s : State} {es : List Event} (hb : s.build.wellFormed = true)
    (hs : s.schedule = .resetRelease :: es) : step s = .next (State.leaveReset { s with schedule := es }) :=
  step_eq hb hs

theorem leaveReset_of_inReset {s : State} (hp : s.phase = .inReset) :
    s.leaveReset = { s with phase := .running, S := Engine.afterReset s.build, rsp := none } := by
  simp only [State.leaveReset, hp]

/-- `rst_n` going high that was not low does nothing (log 8; before the first reset too, log 23). -/
theorem leaveReset_of_not_inReset {s : State} (hp : s.phase ≠ .inReset) : s.leaveReset = s := by
  unfold State.leaveReset
  split
  · rename_i hin; exact absurd hin hp
  · rfl
  · rfl

/-- Settles O15: the assertion and then the release, which leaves the values of R36 (`afterReset_fits`, `zero_allZero`). -/
theorem resetLeavesTheResetValues : Obligations.ResetLeavesTheResetValues := by
  intro s es hb hs
  have hassert := step_of_resetAssert hb hs
  have hrelease := step_of_resetRelease (s := State.enterReset { s with schedule := .resetRelease :: es }) hb rfl
  exact ⟨_, (runSteps_succ_of_next 1 hassert).trans (runSteps_succ_of_next 0 hrelease), rfl, rfl, rfl, rfl, rfl, rfl,
    afterReset_fits s.build, zero_allZero s.build, rfl, rfl, rfl, rfl⟩

/-! ### While reset is asserted, and before it first is (R221, R222) -/

/-- No event of the host or of the tick source is one of reset or power. -/
theorem isReset_eq_false_of_hostOrTick :
    ∀ e ∈ [Event.issue, .take, .tick, .issueTick, .closeEdge], e.isReset = false := by decide

/-- In reset every output is 0: `S` has its reset values and no response waits (R221). -/
theorem outputs_of_inReset {s : State} (hI : Inv s) (hp : s.phase = .inReset) :
    s.outputs = some ⟨false, false, none, false⟩ := by
  obtain ⟨-, -, hrsp, hreset⟩ := hI
  have hr : s.rsp = none := hrsp (by simp [hp])
  have hS : s.S = Engine.afterReset s.build := hreset hp
  simp [State.outputs, State.cmdReady, State.readyO, hp, hr, hS, Engine.afterReset]

/-- Settles O16: the invariant gives the outputs in reset, and each event's step is known (`step_of_inReset`,
`step_of_resetAssert`, `step_of_resetRelease`). -/
theorem nothingHappensWhileResetIsAsserted : Obligations.NothingHappensWhileResetIsAsserted := by
  intro s hI
  have ⟨hb, _⟩ := hI
  refine ⟨fun hp => ⟨outputs_of_inReset hI hp, fun e es hs he => ?_⟩, fun es hs => step_of_resetAssert hb hs,
    fun es hs => ⟨fun hp => ?_, fun hp => ?_⟩⟩
  · exact step_of_inReset hb hp hs (isReset_eq_false_of_hostOrTick e he)
  · rw [step_of_resetRelease hb hs, leaveReset_of_inReset (s := { s with schedule := es }) hp]
  · rw [step_of_resetRelease hb hs, leaveReset_of_not_inReset (s := { s with schedule := es }) hp]

/-- Before the first reset an event other than those of reset and power is refused (R222; log 11). -/
theorem step_of_beforeReset {s : State} {e : Event} {es : List Event} (hb : s.build.wellFormed = true)
    (hp : s.phase = .beforeReset) (hs : s.schedule = e :: es) (he : e.isReset = false) :
    step s = .refused .beforeFirstReset := by
  rw [step_eq hb hs, applyEvent_eq]
  simp only [he, hp, Bool.false_eq_true, if_false]

/-- Settles O17: the outputs are those of the phase, and `step_of_beforeReset` refuses each event. -/
theorem eventsBeforeTheFirstResetAreRefused : Obligations.EventsBeforeTheFirstResetAreRefused := by
  intro s hb hp
  refine ⟨?_, fun e es hs he => step_of_beforeReset hb hp hs (isReset_eq_false_of_hostOrTick e he)⟩
  simp only [State.outputs, hp]

/-! ### A TICK during the filtering (R224) -/

/-- A legal word of a run has the effect of its command, and the rest of the run goes on from there. -/
theorem observe_command_state {w : Word} {i : Instr} (hd : decode w = .instr i) (b : Build) (es : List RunEvent)
    (S : Engine) : (observe b (.command w :: es) S).1 = (observe b es (effectOn b i S)).1 := by
  simp only [observe, commandEffect_eq, wordEffect_of_instr hd]

@[simp] theorem observe_nil (b : Build) (S : Engine) : observe b [] S = (S, []) := rfl

@[simp] theorem observe_tick (b : Build) (es : List RunEvent) (S : Engine) :
    observe b (.tick :: es) S = observe b es (TICK S) := rfl

/-- Settles O39: after ACK the TICK finds `READY = 0` and sets it, on either side of the filtering, which writes neither
`READY` nor `OVR_CNT`; before ACK it finds `READY = 1`, so it is counted, and ACK clears what it leaves. -/
theorem clearFirstKeepsTheTick : Obligations.ClearFirstKeepsTheTick := by
  intro b S raw hraw hready
  have hack : decode 0x20000000#32 = .instr .ack := by decide
  have hfilter := decode_encode_procraw hraw
  have hfilter_READY (T : Engine) : (effectOn b (.procraw raw) T).READY = T.READY :=
    effectOn_READY b (i := .procraw raw) nofun T
  have hfilter_OVR (T : Engine) : (effectOn b (.procraw raw) T).OVR_CNT = T.OVR_CNT :=
    effectOn_OVR_CNT b (i := .procraw raw) nofun T
  have hcleared : (effectOn b .ack S).READY = false := rfl
  simp only [observe_command_state hack, observe_command_state hfilter, observe_tick, observe_nil]
  refine ⟨TICK_READY _, ?_, ?_, ?_, rfl, ?_⟩
  · rw [TICK_of_not_ready ((hfilter_READY _).trans hcleared)]
    exact hfilter_OVR _
  · rw [hfilter_READY, TICK_READY]
  · rw [hfilter_OVR, TICK_of_not_ready hcleared]
    rfl
  · rw [effectOn_OVR_CNT b (by decide), TICK_of_ready ((hfilter_READY S).trans hready), ← hfilter_OVR S]
    exact overrunCount_toNat _

end Sys2Proof.Machine
end

section
/-! The words of 95_test_vectors.md section 2.2: the legal ones are the words of well-formed commands, the illegal ones are named
by R201's case. -/

namespace Sys2Proof

open Sys2Proof.Machine Sys2Proof.Safety

/-- The decoder rejects exactly the words that are not `LEGAL`, and names R201's first case that holds (log 13). -/
theorem decode_eq_illegal_iff {w : Word} {c : IllegalCause} :
    decode w = .illegal c ↔ LEGAL w = false ∧ illegalCause w = c := by
  cases hl : LEGAL w with
  | true =>
    obtain ⟨i, hi⟩ := exists_decode_of_LEGAL hl
    simp [hi]
  | false => simp [decode_of_not_LEGAL hl]

/-- Settles O6: each legal word is the word of its command (`decode_eq_instr_iff`); each illegal one is not `LEGAL` and falls
under the case named (`decode_eq_illegal_iff`). -/
theorem wordsOfTheDecodingTable : Obligations.WordsOfTheDecodingTable := by
  unfold Obligations.WordsOfTheDecodingTable
  simp only [decode_eq_instr_iff, decode_eq_illegal_iff]
  decide

end Sys2Proof
end
